-- ==== Sys2Proof/Word.lean ====
section
/-! DEFINITION. The word types of the core: every value is an unsigned bit vector (00_scope.md R8, R9). -/

namespace Sys2Proof

/-- A byte of memory or the contents of a `V` register: 8 bits, unsigned (R17, R18). -/
abbrev Byte := BitVec 8

/-- An instruction word: 16 bits (R49). -/
abbrev Word := BitVec 16

/-- A value of `pc`, a call-stack entry or a `fault_pc`: 16 bits (R22, R29, R28). -/
abbrev Addr := BitVec 16

/-- The `nnn` field of a CALL: a 12-bit unsigned absolute address (R54). -/
abbrev Addr12 := BitVec 12

/-- The index of a `V` register. A nibble is always 0 to 15, so no index check exists and none can fail (R18, R53). -/
abbrev RegIdx := Fin 16

end Sys2Proof
end

