-- ==== Sys2Proof/Syntax.lean ====
section
/-! DEFINITION. The seven instructions (00_scope.md R2, 30_encoding.md R55), and the lines of the assembler of R60. -/

namespace Sys2Proof

/-- One constructor per row of spec/opcode_table.json. -/
inductive Instr where
  /-- HALT, the halt sentinel `0x0000` (R71). -/
  | halt
  /-- RET, `0x00EE` (R83). -/
  | ret
  /-- CALL nnn, `0x2nnn` (R81). -/
  | call (nnn : Addr12)
  /-- OR Vx, Vy, `0x8xy1` (R89). -/
  | or (x y : RegIdx)
  /-- AND Vx, Vy, `0x8xy2` (R90). -/
  | and (x y : RegIdx)
  /-- ADD Vx, Vy, `0x8xy4` (R91). -/
  | add (x y : RegIdx)
  /-- SUB Vx, Vy, `0x8xy5` (R92). -/
  | sub (x y : RegIdx)
  deriving DecidableEq, Repr

/-- The instruction's mnemonic, as spec/opcode_table.json and R60 spell it. -/
def Instr.mnemonic : Instr → String
  | .halt => "HALT"
  | .ret => "RET"
  | .call _ => "CALL"
  | .or _ _ => "OR"
  | .and _ _ => "AND"
  | .add _ _ => "ADD"
  | .sub _ _ => "SUB"

/-- Whether an instruction is a CALL. -/
def Instr.isCall : Instr → Bool
  | .call _ => true
  | .halt => false
  | .ret => false
  | .or _ _ => false
  | .and _ _ => false
  | .add _ _ => false
  | .sub _ _ => false

/-- A line of assembly with the operands as written, before any check (R60): register numbers, a target address and a
raw word are numbers of any size here. There are no pseudo-instructions (R61). -/
inductive AsmLine where
  | halt
  | ret
  | call (a : Nat)
  | or (x y : Nat)
  | and (x y : Nat)
  | add (x y : Nat)
  | sub (x y : Nat)
  /-- `.word 0xhhhh`: a raw data word, used to place an illegal word. -/
  | word (w : Nat)
  deriving DecidableEq, Repr

/-- The assembly line of an instruction. -/
def Instr.toAsm : Instr → AsmLine
  | .halt => .halt
  | .ret => .ret
  | .call nnn => .call nnn.toNat
  | .or x y => .or x.val y.val
  | .and x y => .and x.val y.val
  | .add x y => .add x.val y.val
  | .sub x y => .sub x.val y.val

/-- The hexadecimal digits of `n`, as many as `width` (capitals, as `VF` is spelled). -/
def hexDigits : (width : Nat) → (n : Nat) → List Char
  | 0, _ => []
  | width + 1, n =>
    hexDigits width (n / 16) ++ ["0123456789ABCDEF".toList.getD (n % 16) '0']

/-- `0x` and `width` hexadecimal digits. -/
def hexText (width n : Nat) : String := "0x" ++ String.ofList (hexDigits width n)

/-- A register operand, `V0` to `VF` (R60). -/
def regText (x : Nat) : String := "V" ++ String.ofList (hexDigits 1 x)

/-- The text of a well-formed line in the syntax of R60. DESIGN CHOICE (entry 11): an address is written with three
digits and a raw word with four, as in the spec's examples; text only, no semantics rests on it. -/
def AsmLine.text : AsmLine → String
  | .halt => "HALT"
  | .ret => "RET"
  | .call a => "CALL " ++ hexText 3 a
  | .or x y => "OR " ++ regText x ++ ", " ++ regText y
  | .and x y => "AND " ++ regText x ++ ", " ++ regText y
  | .add x y => "ADD " ++ regText x ++ ", " ++ regText y
  | .sub x y => "SUB " ++ regText x ++ ", " ++ regText y
  | .word w => ".word " ++ hexText 4 w

/-- A line prefixed by its address, `0xAAA:` (R60). -/
def AsmLine.textAt (address : Nat) (l : AsmLine) : String := hexText 3 address ++ ": " ++ l.text

end Sys2Proof
end

