-- ==== Sys2Proof/WellFormed.lean ====
section
/-! DEFINITION. The operand checks of the assembler (30_encoding.md R60). An `Instr` meets them by construction: its
register operands are nibbles and its target has 12 bits, so "no register-index check exists and none can fail" (R53). -/

namespace Sys2Proof

/-- A register operand is `V0` to `VF` (R60). -/
def regOperandOk (x : Nat) : Bool := x < 16

/-- CALL's address is 0 to `0xFFF`; the assembler "rejects any other" (R60). -/
def callOperandOk (a : Nat) : Bool := a < 0x1000

/-- A raw word has 16 bits, `.word 0xhhhh` (R60). -/
def wordOperandOk (w : Nat) : Bool := w < 0x10000

/-- Every operand of the line is one R60 admits. -/
def AsmLine.wellFormed : AsmLine → Bool
  | .halt => true
  | .ret => true
  | .call a => callOperandOk a
  | .or x y => regOperandOk x && regOperandOk y
  | .and x y => regOperandOk x && regOperandOk y
  | .add x y => regOperandOk x && regOperandOk y
  | .sub x y => regOperandOk x && regOperandOk y
  | .word w => wordOperandOk w

/-- An instruction is well formed when its assembly line is. -/
def Instr.wellFormed (i : Instr) : Bool := i.toAsm.wellFormed

end Sys2Proof
end

