-- ==== Sys2Proof/Decode.lean ====
section
/-! DEFINITION. The codec (30_encoding.md R51, R52), the fields of a word (R50, R53), the decoder (R56 to R58), and
after it the encoder, the assembler (R60) and the opcode table as data (R55). -/

namespace Sys2Proof

/-! ### The codec and the fields -/

/-- `decompose(w)`: the high byte and the low byte (R51). -/
def decompose (w : Word) : Byte × Byte := (w.extractLsb' 8 8, w.extractLsb' 0 8)

/-- `compose(h, l) = h ++ l` (R52). -/
def compose (h l : Byte) : Word := h ++ l

/-- `c = op[15:12]` (R13, R50). -/
def fieldC (op : Word) : BitVec 4 := op.extractLsb' 12 4

/-- `x = op[11:8]`, used directly as a register index (R50, R53). -/
def fieldX (op : Word) : RegIdx := (op.extractLsb' 8 4).toFin

/-- `y = op[7:4]`, used directly as a register index (R50, R53). -/
def fieldY (op : Word) : RegIdx := (op.extractLsb' 4 4).toFin

/-- `d = op[3:0]` (R50). -/
def fieldD (op : Word) : BitVec 4 := op.extractLsb' 0 4

/-- `nnn = op[11:0]` (R50, R54). -/
def fieldNNN (op : Word) : Addr12 := op.extractLsb' 0 12

/-! ### The decoder -/

/-- What a word decodes to (R57). -/
inductive Decoded where
  | instr (i : Instr)
  /-- `UNIMPLEMENTED(op)`: the word matches no row of R55 (R58). -/
  | unimplemented (op : Word)
  deriving DecidableEq, Repr

/-- `Decode(op)`, total over all 65536 words, the halt test first (R56, R57). -/
def decode (op : Word) : Decoded :=
  if op = 0x0000#16 then .instr .halt
  else if op = 0x00EE#16 then .instr .ret
  else if fieldC op = 0x2#4 then .instr (.call (fieldNNN op))
  else if fieldC op = 0x8#4 ∧ fieldD op = 0x1#4 then .instr (.or (fieldX op) (fieldY op))
  else if fieldC op = 0x8#4 ∧ fieldD op = 0x2#4 then .instr (.and (fieldX op) (fieldY op))
  else if fieldC op = 0x8#4 ∧ fieldD op = 0x4#4 then .instr (.add (fieldX op) (fieldY op))
  else if fieldC op = 0x8#4 ∧ fieldD op = 0x5#4 then .instr (.sub (fieldX op) (fieldY op))
  else .unimplemented op

/-- Why a list of bytes gives no instruction. -/
inductive DecodeError where
  /-- The word matches no row of the opcode table (R58). -/
  | unimplementedOpcode (op : Word)
  /-- Fewer than the two bytes every instruction has (R49). -/
  | truncated
  deriving DecidableEq, Repr

/-- Decode the first instruction of a list of bytes, and give the rest of the list: every instruction consumes exactly
two bytes, the first the high one (R38, R49). -/
def decodeBytes : List Byte → Except DecodeError (Instr × List Byte)
  | h :: l :: rest =>
    match decode (compose h l) with
    | .instr i => .ok (i, rest)
    | .unimplemented op => .error (.unimplementedOpcode op)
  | [] => .error .truncated
  | [_] => .error .truncated

/-! ### The encoder and the assembler -/

/-- `0x8000 | (x << 8) | (y << 4) | d`: the word of format XY (R50, R60). -/
def encodeXY (x y : RegIdx) (d : Word) : Word :=
  0x8000#16 ||| (BitVec.ofNat 16 x.val <<< 8) ||| (BitVec.ofNat 16 y.val <<< 4) ||| d

/-- The word of an instruction (R50, R55, R60). -/
def encode : Instr → Word
  | .halt => 0x0000#16
  | .ret => 0x00EE#16
  | .call nnn => 0x2000#16 ||| nnn.setWidth 16
  | .or x y => encodeXY x y 0x1#16
  | .and x y => encodeXY x y 0x2#16
  | .add x y => encodeXY x y 0x4#16
  | .sub x y => encodeXY x y 0x5#16

/-- The two bytes of an instruction as memory holds them, the high one at the lower address (R39, R51). -/
def encodeBytes (i : Instr) : List Byte := [(decompose (encode i)).1, (decompose (encode i)).2]

/-- Format XY from register numbers as written: rejected unless both are 0 to 15 (R60). -/
def assembleXY (mk : RegIdx → RegIdx → Instr) (x y : Nat) : Option Word :=
  if h : x < 16 ∧ y < 16 then some (encode (mk ⟨x, h.1⟩ ⟨y, h.2⟩)) else none

/-- The assembler of R60: the word of a line, or `none` where it rejects an operand. -/
def assemble : AsmLine → Option Word
  | .halt => some (encode .halt)
  | .ret => some (encode .ret)
  | .call a => if a < 0x1000 then some (0x2000#16 ||| BitVec.ofNat 16 a) else none
  | .or x y => assembleXY .or x y
  | .and x y => assembleXY .and x y
  | .add x y => assembleXY .add x y
  | .sub x y => assembleXY .sub x y
  | .word w => if w < 0x10000 then some (BitVec.ofNat 16 w) else none

/-! ### The opcode table as data -/

/-- A row of the opcode map (R55, spec/opcode_table.json). -/
structure OpcodeRow where
  mnemonic : String
  /-- The bits the word has under the mask ("match"). -/
  pattern : Word
  mask : Word
  deriving DecidableEq, Repr

/-- "A word `op` matches a row when `(op & mask) == match`" (R55). -/
def OpcodeRow.accepts (r : OpcodeRow) (op : Word) : Bool := op &&& r.mask == r.pattern

/-- The rows of R55, in the table's order. -/
def opcodeTable : List OpcodeRow :=
  [⟨"HALT", 0x0000#16, 0xFFFF#16⟩, ⟨"RET", 0x00EE#16, 0xFFFF#16⟩, ⟨"CALL", 0x2000#16, 0xF000#16⟩,
   ⟨"OR", 0x8001#16, 0xF00F#16⟩, ⟨"AND", 0x8002#16, 0xF00F#16⟩, ⟨"ADD", 0x8004#16, 0xF00F#16⟩,
   ⟨"SUB", 0x8005#16, 0xF00F#16⟩]

/-! ### The host's view of the opcode table -/

/-- The instruction's word from a table word: bit 0 is the least significant bit of the first (and only) word, and every
bit above `nbits` is 0. -/
def tableWord (nbits w : Nat) : Word := BitVec.ofNat 16 (w % 2 ^ nbits)

/-- The table word laid out in bytes, high byte first (R39), given to the decoder. -/
def decodeTableWord (nbits w : Nat) : Option Instr :=
  match decodeBytes [(decompose (tableWord nbits w)).1, (decompose (tableWord nbits w)).2] with
  | .ok (i, _) => some i
  | .error _ => none

end Sys2Proof
end

