-- ==== Sys2Proof/Config.lean ====
section
/-! DEFINITION. The implementation parameters the spec fixes (00_scope.md R5) and the one it leaves open (R6).
`INIT_MEM` and `INIT_V` (R7) are not constants: they are arguments of `State.launch` and `hostReset`. -/

namespace Sys2Proof

/-- What an unrecognized word does (R6, R99): the spec's open parameter `UNIMPL_POLICY`. -/
inductive UnimplPolicy where
  /-- The step ends in `FAULTED(UnimplementedOpcode, a, op)`. -/
  | fatal
  /-- The word is a no-op after the fetch. -/
  | skip
  deriving DecidableEq, Repr

/-- `MEM_SIZE` (R5): the memory has the addresses 0 to 4095. -/
abbrev Config.memSize : Nat := 4096

/-- `FLAG_INDEX` (R5): the register that is also the carry/borrow flag. -/
abbrev Config.flagIndex : Fin 16 := 15

/-- `STACK_DEPTH` (R5). -/
abbrev Config.stackDepth : Nat := 16

/-- The policy of `step` and `core`: the hardware's default, FATAL (R6). `stepWith` takes either policy.
DESIGN CHOICE (entry 1): the one step the host runs is fixed at the default. Unsafe for a host that chose SKIP. -/
def Config.unimplPolicy : UnimplPolicy := .fatal

end Sys2Proof
end

