-- ==== Sys2Proof/Machine/State.lean ====
section
/-! DEFINITION. The state of the core: exactly the tuple `(mem, V, pc, stack, sp, status)` of 10_state.md R17, as plain
data, the launch state of R34, and the reasons a step can stop. -/

namespace Sys2Proof.Machine

/-- The memory as (address, byte) pairs in one canonical form, `Memory.wf`: addresses strictly rising, each below 4096.
An address that is not listed holds no value the model knows: `INIT_MEM` has no default (R34, D15; entry 2). -/
abbrev Memory := List Host.Cell

/-- The register file `V[0]` to `V[15]`. `V[15]` is an ordinary slot that is also the flag (R18, R19). -/
abbrev RegFile := Vector Byte 16

/-- The call stack `stack[0]` to `stack[15]`, storage of its own (R29). -/
abbrev CallStack := Vector Addr 16

/-- A 4096-byte memory image, `INIT_MEM` (R7). -/
abbrev MemImage := Vector Byte 4096

/-- The four fatal conditions (R97). -/
inductive FatalKind where
  | unimplementedOpcode
  | stackOverflow
  | stackUnderflow
  | outOfBoundsMemoryAccess
  deriving DecidableEq, Repr

/-- The engine status (R28). `word` is `none` when the fetch itself failed. -/
inductive Status where
  | running
  | halted
  | faulted (kind : FatalKind) (faultPc : Addr) (word : Option Word)
  deriving DecidableEq, Repr

/-- The whole architectural state (R17). -/
structure State where
  mem : Memory
  v : RegFile
  pc : Addr
  stack : CallStack
  /-- The next free stack slot, 0 to 16 (R30). -/
  sp : Fin 17
  status : Status
  deriving DecidableEq, Repr

/-- Why the MODEL stops. The spec's four fatal conditions are not here: they are states of the machine, with
`status = FAULTED(...)` (R97, R106). -/
inductive Fault where
  /-- Raised by `stepWith` when the fetch needs a byte of `INIT_MEM` that the state does not list (entry 2).
  Safe: the hardware, whose image always has all 4096 bytes, goes on, and a complete memory never raises it. -/
  | unloadedByte (address : Nat)
  deriving DecidableEq, Repr

/-- Why the model gives no meaning. -/
inductive Refusal where
  /-- For an arm of `exec` whose instruction has no meaning yet, by its mnemonic. Every instruction has its meaning, so
  nothing raises it now. Safe: the model would stop where the hardware goes on. -/
  | notModelled (mnemonic : String)
  deriving DecidableEq, Repr

/-- What a step or a meaning answers. -/
abbrev Result := Host.Outcome State Fault Refusal

/-- The launch state of `Reset(INIT_MEM, INIT_V)` (R34, R114). The stack's contents at reset are "any value", so they are
a third argument (entry 4). -/
def State.launch (mem : Memory) (v : RegFile) (stack : CallStack) : State :=
  { mem := mem, v := v, pc := 0#16, stack := stack, sp := 0, status := .running }

/-- The launch state with nothing loaded. DESIGN CHOICE (entries 2, 3, 4): no byte of memory listed, every `V` register
and every stack entry 0, for which the spec gives no value. Unsafe; claims are about `State.launch` with any inputs. -/
def State.reset : State := State.launch [] (Vector.replicate 16 0#8) (Vector.replicate 16 0#16)

end Sys2Proof.Machine
end

