-- ==== Sys2Proof/Machine/Memory.lean ====
section
/-! DEFINITION. The memory: reading a byte, the loader's writes, and the canonical form (20_memory.md R35 to R41). -/

namespace Sys2Proof.Machine

/-- The byte at an address, if the memory lists it. -/
def Memory.read : Memory → Nat → Option Byte
  | [], _ => none
  | (c, b) :: rest, a => if a = c then some b else Memory.read rest a

/-- Put a cell into the list at its place, in place of one with the same address. -/
def Memory.insert : Memory → Nat → Byte → Memory
  | [], a, b => [(a, b)]
  | (c, x) :: rest, a, b =>
    if a < c then (a, b) :: (c, x) :: rest
    else if a = c then (a, b) :: rest
    else (c, x) :: Memory.insert rest a b

/-- Store a byte: the loader's write, at an address that exists. The core itself never writes memory (R36). -/
def Memory.write (m : Memory) (a : Fin Config.memSize) (b : Byte) : Memory := m.insert a.val b

/-- Store a word big-endian, `mem[a] <- w >> 8` and `mem[a+1] <- w & 0xFF` (R39); `none` where one of the two addresses
does not exist. -/
def Memory.writeWord (m : Memory) (a : Nat) (w : Word) : Option Memory :=
  if h : a + 1 < Config.memSize then
    some ((m.write ⟨a, Nat.lt_of_succ_lt h⟩ (decompose w).1).write ⟨a + 1, h⟩ (decompose w).2)
  else none

/-- The loader's contract: instruction words placed one after another from an address (R78, R116); `none` where they do
not fit in the memory. The image is not validated (R59). -/
def Memory.loadWords : Memory → Nat → List Word → Option Memory
  | m, _, [] => some m
  | m, a, w :: ws =>
    match m.writeWord a w with
    | some m' => Memory.loadWords m' (a + 2) ws
    | none => none

/-- The memory that holds a whole image `INIT_MEM`: every address 0 to 4095 listed (R34). -/
def Memory.ofImage (img : MemImage) : Memory := (List.finRange 4096).map fun a => (a.val, img[a])

/-- The canonical form: addresses strictly rising, every one of them an address that exists. An unlisted address reads
as no value, so no cell can equal it. -/
abbrev Memory.wf (m : Memory) : Prop :=
  m.Pairwise (fun p q => p.1 < q.1) ∧ ∀ c ∈ m, c.1 < Config.memSize

end Sys2Proof.Machine
end

