-- ==== Sys2Proof/Machine/Ops.lean ====
section
/-! DEFINITION. The named operations over the registers, the call stack and the status: register access (10_state.md
R18), push and pop (R30, R31), raising a fatal condition (60_exceptions.md R97, R106), and the fetch (20_memory.md R37).
There is no return from a fatal condition: FAULTED is terminal (R107). -/

namespace Sys2Proof.Machine

/-! ### Registers -/

/-- `V[i]`. No register is hardwired (R18). -/
def State.readReg (s : State) (i : RegIdx) : Byte := s.v[i]

/-- `V[i] <- b`. -/
def State.writeReg (s : State) (i : RegIdx) (b : Byte) : State := { s with v := s.v.set i b }

/-! ### The call stack -/

/-- `stack[k]`. -/
def State.readStack (s : State) (k : Fin 16) : Addr := s.stack[k]

/-- Push: write `stack[sp]`, then increment `sp` (R30); `none` when `sp` is at the capacity (R81, R82). -/
def State.push (s : State) (a : Addr) : Option State :=
  if h : s.sp.val < 16 then
    some { s with stack := s.stack.set s.sp.val a h, sp := ⟨s.sp.val + 1, Nat.succ_lt_succ h⟩ }
  else none

/-- Pop: decrement `sp`, then read `stack[sp]`; the slot keeps its value (R30, R31). `none` when the stack is empty. -/
def State.pop (s : State) : Option (Addr × State) :=
  if h : 0 < s.sp.val then
    have below : s.sp.val - 1 < 16 := by have := s.sp.isLt; omega
    some (s.stack[s.sp.val - 1], { s with sp := ⟨s.sp.val - 1, Nat.lt_succ_of_lt below⟩ })
  else none

/-! ### Fatal conditions -/

/-- `raise <Kind>(fault_pc, word)`: the status records the three and nothing else changes; control goes nowhere
(R97, R106). -/
def State.raise (s : State) (kind : FatalKind) (faultPc : Addr) (word : Option Word) : State :=
  { s with status := .faulted kind faultPc word }

/-- The address `a` of the instruction being executed: the fetch has already set `pc <- a + 2` (R23, R63).
DEDUCED (entry 6): the meanings run on the state after the fetch, and find `a` again from the advanced `pc`. Safe: in
every state a fetch leaves, this is the address fetched. -/
def State.instrAddr (s : State) : Addr := s.pc - 2#16

/-- Raise a fatal condition of the instruction being executed, whose word is `op` (R98). -/
def State.raiseHere (s : State) (kind : FatalKind) (op : Word) : State := s.raise kind s.instrAddr (some op)

/-- What an illegal word does after its fetch (R99): the fatal condition, or nothing more under SKIP. -/
def execUnimplemented (policy : UnimplPolicy) (op : Word) (s : State) : Result :=
  match policy with
  | .fatal => .next (s.raiseHere .unimplementedOpcode op)
  | .skip => .next s

/-- The numeric code of a fatal condition (R98). -/
def FatalKind.code : FatalKind → Nat
  | .unimplementedOpcode => 1
  | .stackOverflow => 2
  | .stackUnderflow => 3
  | .outOfBoundsMemoryAccess => 4

/-- The code the status carries; RUNNING and HALTED have none (R98). -/
def Status.code : Status → Option Nat
  | .running => none
  | .halted => none
  | .faulted kind _ _ => some kind.code

/-! ### The fetch -/

/-- What a fetch finds. -/
inductive Fetched where
  /-- The word at `pc`, and the state with `pc` advanced by 2. -/
  | word (op : Word) (s : State)
  /-- `pc > 4094`: OutOfBoundsMemoryAccess. -/
  | outOfBounds
  /-- A byte of the word is not listed in the state's memory (entry 2). -/
  | unloaded (address : Nat)
  deriving DecidableEq, Repr

/-- `Fetch()` (R37, R38): the bounds check of both bytes, then the big-endian word, then `pc <- pc + 2`, at any
alignment (R40). -/
def fetch (s : State) : Fetched :=
  if s.pc.toNat + 1 > Config.memSize - 1 then .outOfBounds
  else
    match s.mem.read s.pc.toNat, s.mem.read (s.pc.toNat + 1) with
    | some h, some l => .word (compose h l) { s with pc := s.pc + 2#16 }
    | none, _ => .unloaded s.pc.toNat
    | some _, none => .unloaded (s.pc.toNat + 1)

/-- The step of a fetch that fails its bounds check: only `status` changes (R37, R102). -/
def raiseFetchFault (s : State) : Result := .next (s.raise .outOfBoundsMemoryAccess s.pc none)

/-- A step in HALTED or FAULTED changes no state (R68). -/
def stayTerminal (s : State) : Result := .next s

end Sys2Proof.Machine
end

