-- ==== Sys2Proof/Machine/Flags.lean ====
section
/-! DEFINITION. The results and flags of the ALU (42_alu.md R91, R92): computed exactly, then narrowed. The one flag is
`VF = V[15]`, the full byte 0x01 or 0x00 (10_state.md R27). -/

namespace Sys2Proof.Machine

/-- `trunc_8(zext_9(a) + zext_9(b))` (R91). -/
def wrappedSum (a b : Byte) : Byte := BitVec.ofNat 8 (a.toNat + b.toNat)

/-- `trunc_8(a - b + 256)` (R92). -/
def wrappedDifference (a b : Byte) : Byte := BitVec.ofNat 8 (a.toNat + 256 - b.toNat)

/-- ADD's flag: 1 when the exact sum is greater than 255 (R91). -/
def carryFlag (a b : Byte) : Byte := if a.toNat + b.toNat > 255 then 0x01#8 else 0x00#8

/-- SUB's flag: 1 when the exact difference is negative, that is, on a borrow (R92). -/
def borrowFlag (a b : Byte) : Byte := if a.toNat < b.toNat then 0x01#8 else 0x00#8

/-- `V[15] <- f`: overwrites any prior flag value (R27). -/
def State.writeFlag (s : State) (f : Byte) : State := s.writeReg Config.flagIndex f

end Sys2Proof.Machine
end

