-- ==== Sys2Proof/Machine/Operands.lean ====
section
/-! DEFINITION. The operand forms (30_encoding.md R54): two register operands, and an absolute 12-bit address. There are
no immediate operands. -/

namespace Sys2Proof.Machine

/-- The two operands of an ALU instruction, `a <- V[x]` and `b <- V[y]`, both read before anything is written (R87). -/
def State.aluOperands (s : State) (x y : RegIdx) : Byte × Byte := (s.readReg x, s.readReg y)

/-- `zext_16(nnn)`: absolute, no sign extension, no scaling (R54). -/
def callTarget (nnn : Addr12) : Addr := nnn.setWidth 16

end Sys2Proof.Machine
end

