-- ==== Sys2Proof/Machine/Alu.lean ====
section
/-! DEFINITION. OR, AND, ADD and SUB (42_alu.md). The fetch has set `pc`, and no ALU instruction changes it further. -/

namespace Sys2Proof.Machine

/-- `V[x] <- f(a, b)` with both operands read first (R87); the flag is left alone (R89, R90). -/
def State.aluPlain (s : State) (f : Byte → Byte → Byte) (x y : RegIdx) : State :=
  let ab := s.aluOperands x y
  s.writeReg x (f ab.1 ab.2)

/-- `V[x] <- f(a, b)`, then `V[15] <- flag(a, b)`, both from the operands as they stood before (R87), the flag last, so
that it remains when `x = 15` (R88, C1). -/
def State.aluFlagged (s : State) (f flag : Byte → Byte → Byte) (x y : RegIdx) : State :=
  let ab := s.aluOperands x y
  (s.writeReg x (f ab.1 ab.2)).writeFlag (flag ab.1 ab.2)

/-- OR Vx, Vy (R89). -/
def execOr (x y : RegIdx) (s : State) : Result := .next (s.aluPlain (· ||| ·) x y)

/-- AND Vx, Vy (R90). -/
def execAnd (x y : RegIdx) (s : State) : Result := .next (s.aluPlain (· &&& ·) x y)

/-- ADD Vx, Vy (R91). -/
def execAdd (x y : RegIdx) (s : State) : Result := .next (s.aluFlagged wrappedSum carryFlag x y)

/-- SUB Vx, Vy (R92): the flag is 1 on a borrow. -/
def execSub (x y : RegIdx) (s : State) : Result := .next (s.aluFlagged wrappedDifference borrowFlag x y)

end Sys2Proof.Machine
end

