-- ==== Sys2Proof/Machine/ControlFlow.lean ====
section
/-! DEFINITION. CALL and RET (41_control_flow.md). The fetch has set `pc <- a + 2`. Neither checks its target: the next
fetch does (R86). No delay slot, no link register (R85). -/

namespace Sys2Proof.Machine

/-- CALL nnn (R81): push the advanced `pc`, jump to `zext_16(nnn)`; StackOverflow, with nothing else written, when there
is no room. The word of the fault record is this CALL's word (R98). -/
def execCall (nnn : Addr12) (s : State) : Result :=
  match s.push s.pc with
  | some s' => .next { s' with pc := callTarget nnn }
  | none => .next (s.raiseHere .stackOverflow (encode (.call nnn)))

/-- RET (R83): pop into `pc`; StackUnderflow, with nothing else written, when the stack is empty. -/
def execRet (s : State) : Result :=
  match s.pop with
  | some (a, s') => .next { s' with pc := a }
  | none => .next (s.raiseHere .stackUnderflow (encode .ret))

end Sys2Proof.Machine
end

