-- ==== Sys2Proof/Machine/Engine.lean ====
section
/-! DEFINITION. HALT, the one instruction the engine handles itself (40_engine.md R71). -/

namespace Sys2Proof.Machine

/-- HALT: `status <- HALTED`; the `pc` advance of the fetch stays, and nothing else changes (R71, C6). -/
def execHalt (s : State) : Result := .next { s with status := .halted }

end Sys2Proof.Machine
end

