-- ==== Sys2Proof/Machine/Step.lean ====
section
/-! DEFINITION. One fetch-decode-execute iteration, `Step()` (40_engine.md R63), under either `UNIMPL_POLICY`. -/

namespace Sys2Proof.Machine

/-- `Step()` (R63): nothing in a terminal status (R68); else fetch, advance `pc`, decode, dispatch (R64). -/
def stepWith (policy : UnimplPolicy) (s : State) : Host.Outcome State Fault Refusal :=
  match s.status with
  | .halted => stayTerminal s
  | .faulted _ _ _ => stayTerminal s
  | .running =>
    match fetch s with
    | .outOfBounds => raiseFetchFault s
    | .unloaded a => .fault (.unloadedByte a)
    | .word op s' =>
      match decode op with
      | .instr i => exec i s'
      | .unimplemented bad => execUnimplemented policy bad s'

/-- The core's step, under the policy of this hardware (`Config.unimplPolicy`, entry 1). -/
def step (s : State) : Host.Outcome State Fault Refusal := stepWith Config.unimplPolicy s

/-- The state with an opcode-table word stored, big-endian, where the next fetch reads: at `pc` and `pc + 1` (R39).
Nothing else changes; where `pc > 4094` no fetch can succeed and the state is given back as it is (entry 5). -/
def State.withFetchWord (s : State) (nbits w : Nat) : State :=
  match s.mem.writeWord s.pc.toNat (tableWord nbits w) with
  | some m => { s with mem := m }
  | none => s

end Sys2Proof.Machine
end

