-- ==== Sys2Proof/Machine/HostInterface.lean ====
section
/-! DEFINITION. The host's four operations (40_engine.md R72): `Reset`, `Step`, `Run`, `Read`. -/

namespace Sys2Proof.Machine

/-- `Reset(INIT_MEM, INIT_V)` (R72, R114), allowed at any time: whatever state `s` the core was in, nothing of it
remains (R115). The call stack holds any value after it, here the third input (entry 4). -/
def hostReset (initMem : MemImage) (initV : RegFile) (anyStack : CallStack) (_s : State) : State :=
  State.launch (Memory.ofImage initMem) initV anyStack

/-- `Step()` as the host sees it: the state after it and the status it returns (R73). -/
def hostStep (policy : UnimplPolicy) (s : State) : Host.Outcome (State × Status) Fault Refusal :=
  match stepWith policy s with
  | .next t => .next (t, t.status)
  | .fault f => .fault f
  | .refused r => .refused r

/-- `Run()`: step while the status is RUNNING (R67), for at most `fuel` steps (R69 allows fuel; entry 10). -/
def runWith (policy : UnimplPolicy) : (fuel : Nat) → State → Host.Outcome State Fault Refusal
  | 0, s => .next s
  | fuel + 1, s =>
    match stepWith policy s with
    | .next t => if t.status = .running then runWith policy fuel t else .next t
    | .fault f => .fault f
    | .refused r => .refused r

/-- `Read()`: `(mem, V, pc, sp, stack, status)`, when no step is in progress (R72, R77). -/
def State.read (s : State) : Memory × RegFile × Addr × Fin 17 × CallStack × Status :=
  (s.mem, s.v, s.pc, s.sp, s.stack, s.status)

end Sys2Proof.Machine
end

