-- ==== Sys2Proof/Safety.lean ====
section
/-! DEFINITION. The terms the claims use: a memory that holds a whole image, the invariant of the reachable states, and
executing a given instruction. -/

namespace Sys2Proof.Machine

/-- The memory gives every one of its 4096 bytes, as `INIT_MEM` does (R7, R35). -/
def Memory.Complete (m : Memory) : Prop := ∀ a, a < Config.memSize → ∃ b, m.read a = some b

/-- Every live stack entry is a return address a CALL can push: an advanced `pc`, 2 to 4096 (R25, R32). -/
def State.ReturnsOk (s : State) : Prop :=
  ∀ k : Fin 16, k.val < s.sp.val → 2 ≤ (s.readStack k).toNat ∧ (s.readStack k).toNat ≤ 4096

/-- The fault record is one the fatal condition of its kind leaves (R98, R102): which word, which stack pointer, and
where `pc` stands. -/
def State.FaultRecordOk (s : State) : FatalKind → Addr → Option Word → Prop
  | .unimplementedOpcode, a, w =>
    a.toNat ≤ 4094 ∧ s.pc.toNat = a.toNat + 2 ∧ ∃ op, w = some op ∧ decode op = .unimplemented op
  | .stackOverflow, a, w =>
    a.toNat ≤ 4094 ∧ s.pc.toNat = a.toNat + 2 ∧ s.sp.val = 16 ∧ ∃ nnn, w = some (encode (.call nnn))
  | .stackUnderflow, a, w =>
    a.toNat ≤ 4094 ∧ s.pc.toNat = a.toNat + 2 ∧ s.sp.val = 0 ∧ w = some 0x00EE#16
  | .outOfBoundsMemoryAccess, a, w => (a = 4095#16 ∨ a = 4096#16) ∧ s.pc = a ∧ w = none

/-- The status is RUNNING, HALTED, or a legal fault record. -/
def State.StatusOk (s : State) : Prop :=
  ∀ kind a w, s.status = .faulted kind a w → s.FaultRecordOk kind a w

/-- The invariant of every reachable state: canonical memory, `pc` in 0 to 4096 (R25), live return addresses in range
(R32), a legal status (R28, R98). `0 <= sp <= 16` (R30) is in the type of `sp`. -/
structure State.Inv (s : State) : Prop where
  mem_wf : s.mem.wf
  pc_le : s.pc.toNat ≤ 4096
  returns_ok : s.ReturnsOk
  status_ok : s.StatusOk

/-- The core, RUNNING in `s`, fetches the word of `i`, and the step leads to `t`. -/
def Executes (policy : UnimplPolicy) (s : State) (i : Instr) (t : State) : Prop :=
  s.status = .running ∧ (∃ op s', fetch s = .word op s' ∧ decode op = .instr i) ∧ stepWith policy s = .next t

/-- The handlers of a list of instructions one after another, stopping where one does not answer a next state. -/
def execList : List Instr → State → Result
  | [], s => .next s
  | i :: is, s =>
    match exec i s with
    | .next t => execList is t
    | .fault f => .fault f
    | .refused r => .refused r

/-- Two states that a program cannot tell apart: they differ at most in stack slots at or above `sp` (R31, R32). -/
structure State.SameLive (s t : State) : Prop where
  mem : t.mem = s.mem
  v : t.v = s.v
  pc : t.pc = s.pc
  sp : t.sp = s.sp
  status : t.status = s.status
  live : ∀ k : Fin 16, k.val < s.sp.val → t.readStack k = s.readStack k

end Sys2Proof.Machine
end

