-- ==== Sys2Proof/Certificates/Slice0/Obligations.lean ====
section
/-! DEFINITION. The statements about the core, for the provers: each `def Obligations.<Name> : Prop` says what a rule of
spec/ says, or what follows for the whole machine. In a statement about `exec`, the state is the one the fetch left, with
`pc` already advanced by 2 (40_engine.md R63). -/

open Sys2Proof Sys2Proof.Machine

/-! ### Codec, decoder, assembler -/

/-- Words written out in the spec decode as it says: eleven of 95_test_vectors.md (L2, codec and decode), and `0x8232`,
AND V2, V3, which stands in 42_alu.md section 2 (the example of AND) and in program P2 of 95_test_vectors.md. -/
def Obligations.ListedWordsDecode : Prop :=
  decode 0x0000#16 = .instr .halt ∧ decode 0x00EE#16 = .instr .ret ∧
  decode 0x2000#16 = .instr (.call 0x000#12) ∧ decode 0x2FFF#16 = .instr (.call 0xFFF#12) ∧
  decode 0x20EE#16 = .instr (.call 0x0EE#12) ∧ decode 0x8AB4#16 = .instr (.add 10 11) ∧
  decode 0x8FF1#16 = .instr (.or 15 15) ∧ decode 0x8232#16 = .instr (.and 2 3) ∧
  decode 0x8FF5#16 = .instr (.sub 15 15) ∧ decode 0x00E0#16 = .unimplemented 0x00E0#16 ∧
  decode 0x8013#16 = .unimplemented 0x8013#16 ∧ decode 0xF001#16 = .unimplemented 0xF001#16

/-- 30_encoding.md section 2 (the codec): `decompose` and `compose` split and join a word at bit 8, `compose` undoes
`decompose`, and the fetch's word is the `compose` of the two bytes at `pc` and `pc + 1`. That `decompose` undoes
`compose` is an inference the spec marks as its own: "The converse `decompose(compose(h, l)) == (h, l)` also holds for all
`h, l` [derived: from rules R51 and R52]". -/
def Obligations.CodecRoundTrip : Prop :=
  (∀ w : Word, (decompose w).1.toNat = w.toNat >>> 8 ∧ (decompose w).2.toNat = w.toNat &&& 0xFF ∧
    compose (decompose w).1 (decompose w).2 = w) ∧
  (∀ h l : Byte, (compose h l).toNat = h.toNat <<< 8 ||| l.toNat ∧ decompose (compose h l) = (h, l)) ∧
  ∀ s s' op, fetch s = .word op s' →
    ∃ h l, s.mem.read s.pc.toNat = some h ∧ s.mem.read (s.pc.toNat + 1) = some l ∧ op = compose h l

/-- R57: the decoder is the listed sequence of tests, with the fields of R50 taken as numbers. -/
def Obligations.DecodeFollowsItsListing : Prop :=
  ∀ (op : Word) (x y : RegIdx) (nnn : Addr12) (c d : Nat),
    c = op.toNat / 4096 → x.val = op.toNat / 256 % 16 → y.val = op.toNat / 16 % 16 → d = op.toNat % 16 →
    nnn.toNat = op.toNat % 4096 →
    decode op =
      if op.toNat = 0x0000 then .instr .halt
      else if op.toNat = 0x00EE then .instr .ret
      else if c = 2 then .instr (.call nnn)
      else if c = 8 ∧ d = 1 then .instr (.or x y)
      else if c = 8 ∧ d = 2 then .instr (.and x y)
      else if c = 8 ∧ d = 4 then .instr (.add x y)
      else if c = 8 ∧ d = 5 then .instr (.sub x y)
      else .unimplemented op

/-- 30_encoding.md sections 4 and 6: every instruction has exactly one word and every recognized word is the word of the
instruction it decodes to. No bit of an encoding is dropped, in either direction. In bytes, the decoder consumes exactly
the two bytes of the instruction and gives the rest back. -/
def Obligations.DecodeInvertsEncode : Prop :=
  (∀ (w : Word) (i : Instr), decode w = .instr i ↔ encode i = w) ∧
  ∀ (i : Instr) (rest : List Byte), decodeBytes (encodeBytes i ++ rest) = .ok (i, rest)

/-- 30_encoding.md section 4 (opcode map): a word matches at most one row under the row's mask, and the decoder gives
the instruction of that row; it gives none exactly where no row matches. -/
def Obligations.OpcodeRowsAreDisjointAndDecide : Prop :=
  ∀ w : Word, (opcodeTable.filter (·.accepts w)).map (·.mnemonic) =
    match decode w with
    | .instr i => [i.mnemonic]
    | .unimplemented _ => []

/-- 30_encoding.md section 5 (illegal encodings): the illegal words are exactly the three listed sets. -/
def Obligations.IllegalWordsAreTheListedSets : Prop :=
  ∀ w : Word, decode w = .unimplemented w ↔
    (w.toNat / 4096 = 0 ∧ w.toNat ≠ 0x0000 ∧ w.toNat ≠ 0x00EE) ∨
    w.toNat / 4096 ∈ [1, 3, 4, 5, 6, 7, 9, 10, 11, 12, 13, 14, 15] ∨
    (w.toNat / 4096 = 8 ∧ w.toNat % 16 ∈ [0, 3, 6, 7, 8, 9, 10, 11, 12, 13, 14, 15])

/-- 30_encoding.md section 6 (assembler syntax, a decision the spec marks as its own, D23): the assembler accepts exactly
the lines whose operands are in range, an accepted instruction line decodes to that instruction, and a raw word is placed
as it is. -/
def Obligations.AssemblerAcceptsExactlyOperandsInRange : Prop :=
  (∀ l : AsmLine, (assemble l).isSome = true ↔ l.wellFormed = true) ∧
  (∀ i : Instr, ∃ w, assemble i.toAsm = some w ∧ decode w = .instr i) ∧
  ∀ n w, assemble (.word n) = some w → w.toNat = n

/-! ### Memory and the fetch -/

/-- 20_memory.md section 2: a word stored by the loader lies high byte first, at every address whose two bytes exist, no
other byte changes, and a fetch there reads the word back. That an odd address fetches like an even one is the spec's own
decision D4 (entry 8). Whatever the memory holds, the fetch's word has the byte at `pc` above the one at `pc + 1`; and the
core performs no such store itself. -/
def Obligations.StoredWordIsFetchedBigEndian : Prop :=
  (∀ (m : Memory) (a : Nat) (w : Word), a ≤ 4094 →
    ∃ m', m.writeWord a w = some m' ∧
      m'.read a = some (BitVec.ofNat 8 (w.toNat >>> 8)) ∧ m'.read (a + 1) = some (BitVec.ofNat 8 (w.toNat &&& 0xFF)) ∧
      (∀ c, c ≠ a → c ≠ a + 1 → m'.read c = m.read c) ∧
      ∀ s : State, s.mem = m' → s.pc.toNat = a → fetch s = .word w { s with pc := s.pc + 2#16 }) ∧
  (∀ s s' op, fetch s = .word op s' → ∃ h l, s.mem.read s.pc.toNat = some h ∧
    s.mem.read (s.pc.toNat + 1) = some l ∧ op.toNat = h.toNat <<< 8 ||| l.toNat) ∧
  ∀ (p : UnimplPolicy) (s t : State), stepWith p s = .next t → t.mem = s.mem

/-- The model's canonical form of memory (entry 2, the model's choice): two memories in it that read alike at every
address are the same data. -/
def Obligations.CanonicalMemoriesThatReadAlikeAreEqual : Prop :=
  ∀ m₁ m₂ : Memory, m₁.wf → m₂.wf → (∀ a, m₁.read a = m₂.read a) → m₁ = m₂

/-- 20_memory.md section 2 and 60_exceptions.md section 1 (that the check covers the second byte is the spec's own
decision D5): a fetch at `pc > 4094` raises OutOfBoundsMemoryAccess with `fault_pc = pc` and no word, and changes nothing
but the status, `pc` included. -/
def Obligations.FetchPastEndRaisesOutOfBounds : Prop :=
  ∀ (p : UnimplPolicy) (s : State), s.status = .running → 4094 < s.pc.toNat →
    stepWith p s = .next { s with status := .faulted .outOfBoundsMemoryAccess s.pc none }

/-! ### Single instructions -/

/-- 40_engine.md section 2 (that `pc` stays `a + 2` is the spec's own decision D9): HALT answers a next state, whose
status is HALTED and whose every other part is as the fetch left it. -/
def Obligations.HaltHaltsAndKeepsTheRest : Prop :=
  encode .halt = 0x0000#16 ∧ ∀ s : State, ∃ t, exec .halt s = .next t ∧ t.status = .halted ∧
    t.pc = s.pc ∧ t.v = s.v ∧ t.sp = s.sp ∧ t.stack = s.stack ∧ ∀ a, t.mem.read a = s.mem.read a

/-- 41_control_flow.md section 1 (that the target is not checked is the spec's own decision D6): CALL with room on the
stack answers a next state: the advanced `pc` in the slot at `sp`, `sp` one more, `pc` at `nnn`, and nothing else
changed. -/
def Obligations.CallWithRoomPushesAndJumps : Prop :=
  ∀ (nnn : Addr12) (s : State), s.sp.val < 16 →
    ∃ t, exec (.call nnn) s = .next t ∧ t.sp.val = s.sp.val + 1 ∧ t.pc.toNat = nnn.toNat ∧
      (∀ k : Fin 16, t.readStack k = if k.val = s.sp.val then s.pc else s.readStack k) ∧
      t.v = s.v ∧ t.status = s.status ∧ ∀ a, t.mem.read a = s.mem.read a

/-- 41_control_flow.md section 2 (that the popped address is not checked is the spec's own decision D7, that the slot
keeps its value D16): RET with an entry on the stack answers a next state: `sp` one less, `pc` the entry at the new `sp`,
and nothing else changed, the popped slot included. -/
def Obligations.RetWithEntryPopsIntoPc : Prop :=
  ∀ (s : State) (k : Fin 16), k.val + 1 = s.sp.val →
    ∃ t, exec .ret s = .next t ∧ t.sp.val = k.val ∧ t.pc = s.readStack k ∧
      t.stack = s.stack ∧ t.v = s.v ∧ t.status = s.status ∧ ∀ a, t.mem.read a = s.mem.read a

/-- R89: OR answers a next state with `V[x]` the bitwise OR of the operands as they stood, the flag register and every
other register left alone unless it is the destination; nothing else changes. -/
def Obligations.OrResult : Prop :=
  ∀ (x y : RegIdx) (s : State),
    (encode (.or x y)).toNat = 0x8001 + 256 * x.val + 16 * y.val ∧
    ∃ t, exec (.or x y) s = .next t ∧ t.readReg x = s.readReg x ||| s.readReg y ∧
      (∀ j, j ≠ x → t.readReg j = s.readReg j) ∧
      t.pc = s.pc ∧ t.sp = s.sp ∧ t.stack = s.stack ∧ t.status = s.status ∧ ∀ a, t.mem.read a = s.mem.read a

/-- R90: AND, as OR with the bitwise AND. -/
def Obligations.AndResult : Prop :=
  ∀ (x y : RegIdx) (s : State),
    (encode (.and x y)).toNat = 0x8002 + 256 * x.val + 16 * y.val ∧
    ∃ t, exec (.and x y) s = .next t ∧ t.readReg x = s.readReg x &&& s.readReg y ∧
      (∀ j, j ≠ x → t.readReg j = s.readReg j) ∧
      t.pc = s.pc ∧ t.sp = s.sp ∧ t.stack = s.stack ∧ t.status = s.status ∧ ∀ a, t.mem.read a = s.mem.read a

/-- 42_alu.md section 2: ADD answers a next state: `V[x]` the sum modulo 256 unless `x` is 15, `V[15]` the carry in every
case, from the operands as they stood; every other register and the rest of the state unchanged. That the flag is what
remains when `x = 15` (it is written last) is the spec's own resolution C1 (U1, entry 8). -/
def Obligations.AddResultAndCarry : Prop :=
  ∀ (x y : RegIdx) (s : State),
    (encode (.add x y)).toNat = 0x8004 + 256 * x.val + 16 * y.val ∧
    ∃ t, exec (.add x y) s = .next t ∧
      (x ≠ 15 → (t.readReg x).toNat = ((s.readReg x).toNat + (s.readReg y).toNat) % 256) ∧
      t.readReg 15 = (if (s.readReg x).toNat + (s.readReg y).toNat > 255 then 0x01#8 else 0x00#8) ∧
      (∀ j, j ≠ x → j ≠ 15 → t.readReg j = s.readReg j) ∧
      t.pc = s.pc ∧ t.sp = s.sp ∧ t.stack = s.stack ∧ t.status = s.status ∧ ∀ a, t.mem.read a = s.mem.read a

/-- 42_alu.md section 2: SUB answers a next state: `V[x]` the difference modulo 256 unless `x` is 15, `V[15]` 1 on a borrow
and 0 otherwise in every case, from the operands as they stood; the rest unchanged. That the flag is what remains when
`x = 15` (it is written last) is the spec's own resolution C1 (U1, entry 8). -/
def Obligations.SubResultAndBorrow : Prop :=
  ∀ (x y : RegIdx) (s : State),
    (encode (.sub x y)).toNat = 0x8005 + 256 * x.val + 16 * y.val ∧
    ∃ t, exec (.sub x y) s = .next t ∧
      (x ≠ 15 → ((t.readReg x).toNat : Int) = (((s.readReg x).toNat : Int) - (s.readReg y).toNat) % 256) ∧
      t.readReg 15 = (if (s.readReg x).toNat < (s.readReg y).toNat then 0x01#8 else 0x00#8) ∧
      (∀ j, j ≠ x → j ≠ 15 → t.readReg j = s.readReg j) ∧
      t.pc = s.pc ∧ t.sp = s.sp ∧ t.stack = s.stack ∧ t.status = s.status ∧ ∀ a, t.mem.read a = s.mem.read a

/-- R87: what an ALU instruction leaves in its destination and, for ADD and SUB, in the flag depends on the two operands
as they stood before and on nothing else: two states that agree on them get the same results, also when `x = y`,
`x = 15` or `y = 15`. A self-operation is therefore well defined: ADD doubles, SUB gives 0 with no underflow. -/
def Obligations.AluResultsDependOnOperandsOnly : Prop :=
  (∀ (x y : RegIdx) (s₁ s₂ : State), s₁.readReg x = s₂.readReg x → s₁.readReg y = s₂.readReg y →
    (∀ i ∈ [Instr.or x y, .and x y, .add x y, .sub x y], ∃ t₁ t₂, exec i s₁ = .next t₁ ∧ exec i s₂ = .next t₂ ∧
      t₁.readReg x = t₂.readReg x) ∧
    ∀ i ∈ [Instr.add x y, .sub x y], ∃ t₁ t₂, exec i s₁ = .next t₁ ∧ exec i s₂ = .next t₂ ∧
      t₁.readReg 15 = t₂.readReg 15) ∧
  ∀ (x : RegIdx) (s : State),
    (∃ t, exec (.add x x) s = .next t ∧ (x ≠ 15 → (t.readReg x).toNat = 2 * (s.readReg x).toNat % 256)) ∧
    ∃ t, exec (.sub x x) s = .next t ∧ t.readReg x = 0#8 ∧ t.readReg 15 = 0#8

/-- 42_alu.md section 3 (arithmetic laws, which the spec derives): with `x` not 15, result and flag together are the
exact sum, or the exact difference; exchanging the operands of ADD, OR and AND gives the same value. -/
def Obligations.ResultAndFlagAreExact : Prop :=
  ∀ (x y : RegIdx) (s : State), x ≠ 15 →
    (∃ t, exec (.add x y) s = .next t ∧
      (t.readReg x).toNat + 256 * (t.readReg 15).toNat = (s.readReg x).toNat + (s.readReg y).toNat) ∧
    (∃ t, exec (.sub x y) s = .next t ∧
      ((t.readReg x).toNat : Int) - 256 * (t.readReg 15).toNat = ((s.readReg x).toNat : Int) - (s.readReg y).toNat) ∧
    (y ≠ 15 → ∀ mk ∈ [Instr.add, .or, .and], ∃ t u, exec (mk x y) s = .next t ∧ exec (mk y x) s = .next u ∧
      t.readReg x = u.readReg y)

/-! ### The step -/

/-- 40_engine.md section 1: when the core runs and the two bytes at `pc` (any `pc` up to 4094, odd or even) decode to an
instruction, the step is that instruction's meaning on the state with `pc` advanced by 2. That an odd `pc` fetches like an
even one is the spec's own decision D4 (entry 8). That `step` is the step under FATAL is the model's choice (entry 1, the
spec's default policy). -/
def Obligations.StepRunsTheDecodedInstruction : Prop :=
  (∀ (p : UnimplPolicy) (s : State) (h l : Byte) (i : Instr), s.status = .running → s.pc.toNat ≤ 4094 →
    s.mem.read s.pc.toNat = some h → s.mem.read (s.pc.toNat + 1) = some l → decode (compose h l) = .instr i →
    stepWith p s = exec i { s with pc := s.pc + 2#16 }) ∧
  ∀ s, step s = stepWith .fatal s

/-- How a word placed from outside comes to run (entry 5, the model's choice): in a running state whose `pc` can fetch (odd
or even, the spec's own decision D4), the step after `withFetchWord` runs the instruction the opcode-table word stands for,
on the state with `pc` advanced. -/
def Obligations.PlacedWordIsTheNextInstruction : Prop :=
  ∀ (s : State) (w : Nat) (i : Instr), s.status = .running → s.pc.toNat ≤ 4094 → decodeTableWord 16 w = some i →
    step (s.withFetchWord 16 w) = exec i { s.withFetchWord 16 w with pc := s.pc + 2#16 }

/-- 60_exceptions.md section 1 (UnimplementedOpcode; the policy parameter, the record and the kept `pc` advance are the
spec's own decisions D12, D11, D8): an illegal word ends the step in FAULTED with its address and itself under FATAL, and
is a no-op after the fetch under SKIP; nothing else changes. -/
def Obligations.IllegalWordFaultsOrIsSkipped : Prop :=
  ∀ (s : State) (h l : Byte), s.status = .running → s.pc.toNat ≤ 4094 →
    s.mem.read s.pc.toNat = some h → s.mem.read (s.pc.toNat + 1) = some l →
    decode (compose h l) = .unimplemented (compose h l) →
    stepWith .fatal s = .next { s with
      pc := s.pc + 2#16, status := .faulted .unimplementedOpcode s.pc (some (compose h l)) } ∧
    stepWith .skip s = .next { s with pc := s.pc + 2#16 }

/-- 60_exceptions.md section 1 (StackOverflow; record and kept `pc` advance are decisions D11 and D8 of the spec): a CALL
fetched with `sp = 16` ends in FAULTED with its address and its word; only `pc` (advanced by the fetch) and the status
change. -/
def Obligations.CallOnFullStackRaisesOverflow : Prop :=
  ∀ (p : UnimplPolicy) (s s' : State) (op : Word) (nnn : Addr12), s.status = .running → fetch s = .word op s' →
    decode op = .instr (.call nnn) → s.sp.val = 16 →
    stepWith p s = .next { s with pc := s.pc + 2#16, status := .faulted .stackOverflow s.pc (some op) }

/-- 60_exceptions.md section 1 (StackUnderflow; record and kept `pc` advance are decisions D11 and D8 of the spec): a RET
fetched with `sp = 0` ends in FAULTED with its address and the word `0x00EE`; only `pc` and the status change. -/
def Obligations.RetOnEmptyStackRaisesUnderflow : Prop :=
  ∀ (p : UnimplPolicy) (s s' : State) (op : Word), s.status = .running → fetch s = .word op s' →
    decode op = .instr .ret → s.sp.val = 0 →
    stepWith p s = .next { s with pc := s.pc + 2#16, status := .faulted .stackUnderflow s.pc (some 0x00EE#16) }

/-- 10_state.md section 3: how each instruction moves `pc`: the fetch by exactly 2 (it never wraps), then CALL with room to
`nnn`, RET with an entry to the popped entry, and the others leave the advanced value; a fetch out of bounds does not
advance it. That HALT leaves `pc` advanced is the spec's own decision D9 (C6, U9), that CALL and RET do not check their
target D6 and D7, and that a fetch at 4095 is out of bounds D5 (entry 8). -/
def Obligations.PcAfterEachInstruction : Prop :=
  (∀ (p : UnimplPolicy) (s t : State) (i : Instr), Executes p s i t →
    (s.pc + 2#16).toNat = s.pc.toNat + 2 ∧
    match i with
    | .call nnn => s.sp.val < 16 → t.pc.toNat = nnn.toNat
    | .ret => ∀ k : Fin 16, k.val + 1 = s.sp.val → t.sp.val = k.val ∧ t.pc = s.readStack k
    | .halt => t.pc = s.pc + 2#16
    | .or _ _ => t.pc = s.pc + 2#16
    | .and _ _ => t.pc = s.pc + 2#16
    | .add _ _ => t.pc = s.pc + 2#16
    | .sub _ _ => t.pc = s.pc + 2#16) ∧
  ∀ (p : UnimplPolicy) (s t : State), s.status = .running → fetch s = .outOfBounds → stepWith p s = .next t →
    t.pc = s.pc

/-- 40_engine.md section 1 (a decision the spec marks as its own, D10): HALTED and FAULTED are terminal, for one step and
for a run of any length. -/
def Obligations.TerminalStatusStays : Prop :=
  ∀ (p : UnimplPolicy) (s : State), s.status ≠ .running →
    stepWith p s = .next s ∧ ∀ n, runWith p n s = .next s

/-- 40_engine.md section 1 and 60_exceptions.md section 2: which status a step leaves. From RUNNING, HALTED exactly when
the fetched word is 0; FAULTED with a given record exactly when that record's condition holds, each with its own kind,
`fault_pc` and word, in the order fetch, decode, precondition; otherwise RUNNING. (Record and policy are the spec's own
decisions D11 and D12.) -/
def Obligations.StatusAfterAStep : Prop :=
  ∀ (p : UnimplPolicy) (s t : State), s.status = .running → stepWith p s = .next t →
    (t.status = .halted ↔ ∃ s', fetch s = .word 0x0000#16 s') ∧
    ∀ kind a w, t.status = .faulted kind a w ↔
      a = s.pc ∧
      ((kind = .outOfBoundsMemoryAccess ∧ w = none ∧ 4094 < s.pc.toNat) ∨
       ∃ op s', fetch s = .word op s' ∧ w = some op ∧
        ((kind = .unimplementedOpcode ∧ decode op = .unimplemented op ∧ p = .fatal) ∨
         (kind = .stackOverflow ∧ (∃ nnn, decode op = .instr (.call nnn)) ∧ s.sp.val = 16) ∨
         (kind = .stackUnderflow ∧ decode op = .instr .ret ∧ s.sp.val = 0)))

/-- 60_exceptions.md section 1 (precision; that `pc` keeps the fetch's advance is the spec's own decision D8): a step that
ends in FAULTED leaves memory, registers, stack and `sp` as they were; it names the instruction's own address, and `pc`
is that address for a fetch fault and 2 more otherwise. -/
def Obligations.FaultsArePrecise : Prop :=
  ∀ (p : UnimplPolicy) (s t : State) (kind : FatalKind) (a : Addr) (w : Option Word),
    s.status = .running → stepWith p s = .next t → t.status = .faulted kind a w →
    t.mem = s.mem ∧ t.v = s.v ∧ t.stack = s.stack ∧ t.sp = s.sp ∧ a = s.pc ∧
      (kind = .outOfBoundsMemoryAccess → t.pc = s.pc ∧ w = none) ∧
      (kind ≠ .outOfBoundsMemoryAccess → t.pc.toNat = s.pc.toNat + 2 ∧ ∃ s', ∃ op, w = some op ∧ fetch s = .word op s')

/-- 60_exceptions.md section 1 (cause codes, the spec's own decision D11): the four kinds have the codes 1 to 4, and
RUNNING and HALTED have none. -/
def Obligations.FatalCodes : Prop :=
  FatalKind.code .unimplementedOpcode = 1 ∧ FatalKind.code .stackOverflow = 2 ∧
  FatalKind.code .stackUnderflow = 3 ∧ FatalKind.code .outOfBoundsMemoryAccess = 4 ∧
  Status.code .running = none ∧ Status.code .halted = none ∧
  ∀ kind a w, Status.code (.faulted kind a w) = some kind.code

/-! ### Frames over all instructions -/

/-- 40_engine.md section 1: every handler answers a next state, whatever the state. -/
def Obligations.EveryHandlerAnswersANextState : Prop :=
  ∀ (i : Instr) (s : State), ∃ t, exec i s = .next t

/-- R36: no instruction writes memory: every address reads after a step as it read before, and during a run from
`Reset` every byte is `INIT_MEM`'s. -/
def Obligations.NothingWritesMemory : Prop :=
  (∀ (p : UnimplPolicy) (s t : State), stepWith p s = .next t → ∀ a, t.mem.read a = s.mem.read a) ∧
  ∀ (p : UnimplPolicy) (n : Nat) (img : MemImage) (v : RegFile) (k : CallStack) (s t : State),
    runWith p n (hostReset img v k s) = .next t → ∀ a : Fin 4096, t.mem.read a.val = some img[a]

/-- 10_state.md section 2 (register access, which the spec derives): HALT, CALL and RET write no `V` register, OR and AND
only `V[x]`, ADD and SUB only `V[x]` and `V[15]`. -/
def Obligations.RegistersEachInstructionMayWrite : Prop :=
  ∀ (i : Instr) (s t : State) (j : RegIdx), exec i s = .next t → t.readReg j ≠ s.readReg j →
    match i with
    | .halt => False
    | .ret => False
    | .call _ => False
    | .or x _ => j = x
    | .and x _ => j = x
    | .add x _ => j = x ∨ j = 15
    | .sub x _ => j = x ∨ j = 15

/-- 10_state.md section 6 (call stack): only CALL and RET move `sp`, only CALL writes a stack entry, and only the one at
the old `sp`; a status other than the old one comes only from HALT, CALL and RET. -/
def Obligations.StackAndStatusEachInstructionMayWrite : Prop :=
  ∀ (i : Instr) (s t : State), exec i s = .next t →
    (t.sp ≠ s.sp → i.isCall = true ∨ i = .ret) ∧
    (∀ k : Fin 16, t.readStack k ≠ s.readStack k → i.isCall = true ∧ k.val = s.sp.val) ∧
    (t.status ≠ s.status → i.isCall = true ∨ i = .ret ∨ i = .halt)

/-- 41_control_flow.md section 1 (nesting depth): any run of handlers without RET and HALT whose CALLs fit on the stack
succeeds, moves `sp` up by the number of CALLs and leaves the status; a CALL after the stack is full then raises
StackOverflow. -/
def Obligations.NestingDepthIsSixteen : Prop :=
  ∀ (is : List Instr) (s : State), Instr.ret ∉ is → Instr.halt ∉ is → s.sp.val + is.countP (·.isCall) ≤ 16 →
    ∃ t, execList is s = .next t ∧ t.sp.val = s.sp.val + is.countP (·.isCall) ∧ t.status = s.status ∧
      (s.sp.val + is.countP (·.isCall) = 16 → ∀ nnn, ∃ u a w, exec (.call nnn) t = .next u ∧
        u.status = .faulted .stackOverflow a w ∧ u.sp = t.sp ∧ u.stack = t.stack ∧ u.v = t.v)

/-! ### The whole machine -/

/-- 70_reset_and_hazards.md section 1 (Reset as an operation is the spec's own decision D25; the stack's contents, any
value, are an input: entry 4): the launch state, whatever state the core was in. -/
def Obligations.ResetLeavesTheLaunchState : Prop :=
  ∀ (img : MemImage) (v : RegFile) (k : CallStack) (s : State),
    (hostReset img v k s).pc = 0#16 ∧ (hostReset img v k s).sp = 0 ∧ (hostReset img v k s).status = .running ∧
    (hostReset img v k s).v = v ∧ (hostReset img v k s).stack = k ∧
    (∀ a : Fin 4096, (hostReset img v k s).mem.read a.val = some img[a]) ∧ (hostReset img v k s).mem.Complete

/-- 40_engine.md section 1: with a whole image in memory every step answers a next state; in any state a step stops only
for a byte the memory does not list (entry 2, the model's choice), and never refuses. -/
def Obligations.StepStopsOnlyForAnUnloadedByte : Prop :=
  (∀ (p : UnimplPolicy) (s : State), s.mem.Complete → ∃ t, stepWith p s = .next t) ∧
  (∀ (p : UnimplPolicy) (s : State) (f : Fault), stepWith p s = .fault f →
    ∃ a, f = .unloadedByte a ∧ a < 4096 ∧ s.mem.read a = none ∧ s.status = .running) ∧
  ∀ (p : UnimplPolicy) (s : State) (r : Refusal), stepWith p s ≠ .refused r

/-- 10_state.md sections 3 and 6, 60_exceptions.md section 1: every step keeps the invariant: canonical memory, `pc` in 0
to 4096, live return addresses 2 to 4096, and a legal fault record. Canonical memory is the model's form (entry 2). The
fault record rests on the spec's own decisions (entry 8): its fields on D11, `pc` after a faulting instruction on D8 (U8),
and the `fault_pc` 4095 or 4096 of a failed fetch on D5. -/
def Obligations.EveryStepKeepsTheInvariant : Prop :=
  ∀ (p : UnimplPolicy) (s t : State), s.Inv → stepWith p s = .next t → t.Inv

/-- The launch state has the invariant, for every canonical memory, every preset and every stack contents (canonical memory is
the model's form, entry 2); `State.reset` (the model's values, entries 2, 3, 4) is one of them. -/
def Obligations.LaunchHasTheInvariant : Prop :=
  (∀ (m : Memory) (v : RegFile) (k : CallStack), m.wf → (State.launch m v k).Inv) ∧ State.reset.Inv

/-- 40_engine.md section 1 (every run ends, which the spec derives): from any state with a whole image in memory, under
either policy, some number of steps reaches HALTED or FAULTED. -/
def Obligations.EveryRunEnds : Prop :=
  ∀ (p : UnimplPolicy) (s : State), s.mem.Complete → ∃ n t, runWith p n s = .next t ∧ t.status ≠ .running

/-- 40_engine.md section 1: the fuel of a run does not matter once it is enough: more fuel gives the same end state. Running
under fuel is the model's choice (entry 10), which the spec allows: "A model may run the step under fuel." -/
def Obligations.MoreFuelGivesTheSameEnd : Prop :=
  ∀ (p : UnimplPolicy) (n m : Nat) (s t : State), runWith p n s = .next t → t.status ≠ .running → n ≤ m →
    runWith p m s = .next t

/-- 41_control_flow.md section 3 (pairing, which the spec derives): after a CALL at `s.pc`, however many steps run
without `sp` falling below what the CALL left, a RET executed with `sp` back at that value resumes at the instruction
after the CALL, with the `sp` the CALL found. -/
def Obligations.MatchedReturnResumesAfterTheCall : Prop :=
  ∀ (p : UnimplPolicy) (s u : State) (nnn : Addr12) (n : Nat) (trace : Nat → State),
    Executes p s (.call nnn) (trace 0) → s.sp.val < 16 →
    (∀ i, i < n → stepWith p (trace i) = .next (trace (i + 1))) →
    (∀ i, i ≤ n → (trace 0).sp.val ≤ (trace i).sp.val) → (trace n).sp = (trace 0).sp →
    Executes p (trace n) .ret u →
    u.pc.toNat = s.pc.toNat + 2 ∧ u.sp = s.sp

/-- 40_engine.md section 1 (the fetch is the only read of memory): a step depends on no byte of memory but the two at
`pc` and `pc + 1`: with any other memory that agrees there, it does the same to the rest of the state. -/
def Obligations.StepReadsOnlyTheFetchedBytes : Prop :=
  ∀ (p : UnimplPolicy) (s t : State) (m : Memory), m.read s.pc.toNat = s.mem.read s.pc.toNat →
    m.read (s.pc.toNat + 1) = s.mem.read (s.pc.toNat + 1) → stepWith p s = .next t →
    stepWith p { s with mem := m } = .next { t with mem := m }

/-- 10_state.md section 6 (that a popped slot keeps its value and that reset leaves any value are the spec's own
decisions D16 and D14): what the stack holds at or above `sp` never reaches the live part of the state, over a run of any
length. -/
def Obligations.DeadStackSlotsAreUnobservable : Prop :=
  ∀ (p : UnimplPolicy) (n : Nat) (s₁ s₂ t₁ : State), s₁.SameLive s₂ → runWith p n s₁ = .next t₁ →
    ∃ t₂, runWith p n s₂ = .next t₂ ∧ t₁.SameLive t₂
end

