-- ==== Sys2Proof/Laws/Memory.lean ====
section
/-! SUPPORT. The memory: a read after a write, and that every memory operation keeps the canonical form. -/

namespace Sys2Proof.Machine

@[simp] theorem Memory.read_nil (a : Nat) : Memory.read [] a = none := rfl

theorem Memory.read_cons (c : Nat) (b : Byte) (rest : Memory) (a : Nat) :
    Memory.read ((c, b) :: rest) a = if a = c then some b else Memory.read rest a := rfl

/-- An address below every listed one is not listed. -/
theorem Memory.read_eq_none_of_lt (m : Memory) (a : Nat) (h : ∀ c ∈ m, a < c.1) : m.read a = none := by
  induction m with
  | nil => rfl
  | cons c rest ih =>
    obtain ⟨n, b⟩ := c
    have hn : a < n := h (n, b) (by simp)
    rw [Memory.read_cons, if_neg (by omega)]
    exact ih fun d hd => h d (by simp [hd])

/-- A read after a write: the byte written at that address, what was there before at every other. -/
theorem Memory.read_insert (m : Memory) (a : Nat) (b : Byte) (c : Nat) :
    (m.insert a b).read c = if c = a then some b else m.read c := by
  induction m with
  | nil => rfl
  | cons d rest ih =>
    obtain ⟨n, x⟩ := d
    simp only [Memory.insert]
    split
    · rfl
    · split
      · next h => subst h; simp only [Memory.read_cons]; split <;> rfl
      · next h₁ h₂ =>
        simp only [Memory.read_cons, ih]
        split
        · next h => rw [if_neg (by omega)]
        · rfl

@[simp] theorem Memory.read_write (m : Memory) (a : Fin Config.memSize) (b : Byte) (c : Nat) :
    (m.write a b).read c = if c = a.val then some b else m.read c :=
  Memory.read_insert m a.val b c

/-- Every cell after an insertion is the new one or an old one. -/
theorem Memory.mem_insert {m : Memory} {a : Nat} {b : Byte} {c : Host.Cell} (h : c ∈ m.insert a b) :
    c = (a, b) ∨ c ∈ m := by
  induction m with
  | nil => simpa [Memory.insert] using h
  | cons d rest ih =>
    obtain ⟨n, x⟩ := d
    simp only [Memory.insert] at h
    split at h
    · simpa using h
    · split at h
      · rcases List.mem_cons.1 h with h | h
        · exact .inl h
        · exact .inr (List.mem_cons_of_mem _ h)
      · rcases List.mem_cons.1 h with h | h
        · exact .inr (by simp [h])
        · exact (ih h).imp id (List.mem_cons_of_mem _)

theorem Memory.pairwise_insert {m : Memory} (a : Nat) (b : Byte)
    (h : m.Pairwise fun p q => p.1 < q.1) : (m.insert a b).Pairwise fun p q => p.1 < q.1 := by
  induction m with
  | nil => simp [Memory.insert]
  | cons d rest ih =>
    obtain ⟨n, x⟩ := d
    obtain ⟨hd, hr⟩ := List.pairwise_cons.1 h
    simp only [Memory.insert]
    split
    · next hlt =>
      refine List.pairwise_cons.2 ⟨fun c hc => ?_, h⟩
      rcases List.mem_cons.1 hc with rfl | hc
      · exact hlt
      · exact Nat.lt_trans hlt (hd c hc)
    · split
      · next heq => subst heq; exact List.pairwise_cons.2 ⟨hd, hr⟩
      · next h₁ h₂ =>
        refine List.pairwise_cons.2 ⟨fun c hc => ?_, ih hr⟩
        rcases Memory.mem_insert hc with rfl | hc
        · show n < a; omega
        · exact hd c hc

/-- A write keeps the canonical form. -/
theorem Memory.wf_write {m : Memory} (h : m.wf) (a : Fin Config.memSize) (b : Byte) : (m.write a b).wf :=
  ⟨Memory.pairwise_insert _ _ h.1, fun _ hc => by
    rcases Memory.mem_insert hc with rfl | hc
    · exact a.isLt
    · exact h.2 _ hc⟩

/-- Storing a word succeeds exactly where both addresses exist, and is then two byte writes, the high byte first. -/
theorem Memory.writeWord_eq_some {m m' : Memory} {a : Nat} {w : Word} (h : m.writeWord a w = some m') :
    ∃ h₁ : a + 1 < Config.memSize,
      m' = (m.write ⟨a, Nat.lt_of_succ_lt h₁⟩ (decompose w).1).write ⟨a + 1, h₁⟩ (decompose w).2 := by
  unfold Memory.writeWord at h
  split at h
  · next h₁ => exact ⟨h₁, (Option.some.inj h).symm⟩
  · exact absurd h (by simp)

theorem Memory.wf_writeWord {m m' : Memory} {a : Nat} {w : Word} (hm : m.wf) (h : m.writeWord a w = some m') :
    m'.wf := by
  obtain ⟨_, rfl⟩ := Memory.writeWord_eq_some h
  exact Memory.wf_write (Memory.wf_write hm _ _) _ _

theorem Memory.wf_loadWords {ws : List Word} :
    ∀ {m m' : Memory} {a : Nat}, m.wf → m.loadWords a ws = some m' → m'.wf := by
  induction ws with
  | nil => intro m m' a hm h; exact Option.some.inj h ▸ hm
  | cons w ws ih =>
    intro m m' a hm h
    simp only [Memory.loadWords] at h
    split at h
    · next m₁ h₁ => exact ih (Memory.wf_writeWord hm h₁) h
    · exact absurd h (by simp)

/-- The whole image is in canonical form. -/
theorem Memory.wf_ofImage (img : MemImage) : (Memory.ofImage img).wf := by
  refine ⟨List.pairwise_map.2 ?_, fun c hc => ?_⟩
  · have := List.pairwise_lt_finRange 4096
    exact this.imp fun h => h
  · obtain ⟨a, -, rfl⟩ := List.mem_map.1 hc
    exact a.isLt

/-- Memory after reset is in canonical form. -/
theorem Memory.wf_reset : State.reset.mem.wf := by decide

/-- In canonical form the listed addresses are exactly those a read answers. -/
theorem Memory.read_eq_some_iff {m : Memory} (h : m.Pairwise fun p q => p.1 < q.1) (a : Nat) (b : Byte) :
    m.read a = some b ↔ (a, b) ∈ m := by
  induction m with
  | nil => simp
  | cons d rest ih =>
    obtain ⟨n, x⟩ := d
    obtain ⟨hd, hr⟩ := List.pairwise_cons.1 h
    rw [Memory.read_cons, List.mem_cons]
    split
    · next heq =>
      subst heq
      refine ⟨fun e => .inl (by rw [Option.some.inj e]), fun e => ?_⟩
      rcases e with e | e
      · rw [(Prod.mk.inj e).2]
      · exact absurd (hd _ e) (Nat.lt_irrefl _)
    · next hne =>
      rw [ih hr]
      exact ⟨.inr, fun e => e.resolve_left fun e => hne (Prod.mk.inj e).1⟩

/-- A whole image answers every address with its byte. -/
theorem Memory.read_ofImage (img : MemImage) (a : Fin 4096) : (Memory.ofImage img).read a.val = some img[a] :=
  (Memory.read_eq_some_iff (Memory.wf_ofImage img).1 _ _).2 (List.mem_map.2 ⟨a, List.mem_finRange a, rfl⟩)

end Sys2Proof.Machine
end

