-- ==== Sys2Proof/Laws/State.lean ====
section
/-! SUPPORT. The fields of a state after each update, one lemma per field per update, so that no proof unfolds one. -/

namespace Sys2Proof.Machine

/-! ### Writing a register -/

section writeReg
variable (s : State) (i : RegIdx) (b : Byte)

@[simp] theorem writeReg_mem : (s.writeReg i b).mem = s.mem := rfl
@[simp] theorem writeReg_pc : (s.writeReg i b).pc = s.pc := rfl
@[simp] theorem writeReg_stack : (s.writeReg i b).stack = s.stack := rfl
@[simp] theorem writeReg_sp : (s.writeReg i b).sp = s.sp := rfl
@[simp] theorem writeReg_status : (s.writeReg i b).status = s.status := rfl

@[simp] theorem readReg_writeReg (j : RegIdx) :
    (s.writeReg i b).readReg j = if i = j then b else s.readReg j := by
  simp [State.readReg, State.writeReg, Vector.getElem_set, Fin.ext_iff]

end writeReg

/-! ### Writing the flag -/

section writeFlag
variable (s : State) (f : Byte)

@[simp] theorem writeFlag_mem : (s.writeFlag f).mem = s.mem := rfl
@[simp] theorem writeFlag_pc : (s.writeFlag f).pc = s.pc := rfl
@[simp] theorem writeFlag_stack : (s.writeFlag f).stack = s.stack := rfl
@[simp] theorem writeFlag_sp : (s.writeFlag f).sp = s.sp := rfl
@[simp] theorem writeFlag_status : (s.writeFlag f).status = s.status := rfl

@[simp] theorem readReg_writeFlag (j : RegIdx) : (s.writeFlag f).readReg j = if 15 = j then f else s.readReg j :=
  readReg_writeReg s 15 f j

end writeFlag

/-! ### Setting `pc` or the status -/

section setField
variable (s : State) (pc : Addr) (st : Status) (m : Memory)

@[simp] theorem setPc_readReg (j : RegIdx) : ({ s with pc := pc } : State).readReg j = s.readReg j := rfl
@[simp] theorem setPc_readStack (k : Fin 16) : ({ s with pc := pc } : State).readStack k = s.readStack k := rfl
@[simp] theorem setStatus_readReg (j : RegIdx) : ({ s with status := st } : State).readReg j = s.readReg j := rfl
@[simp] theorem setStatus_readStack (k : Fin 16) : ({ s with status := st } : State).readStack k = s.readStack k := rfl
@[simp] theorem setMem_readReg (j : RegIdx) : ({ s with mem := m } : State).readReg j = s.readReg j := rfl
@[simp] theorem setMem_readStack (k : Fin 16) : ({ s with mem := m } : State).readStack k = s.readStack k := rfl

/-- Equal register files read alike. -/
theorem readReg_congr {s t : State} (h : t.v = s.v) (j : RegIdx) : t.readReg j = s.readReg j := by
  unfold State.readReg; rw [h]

/-- Equal stacks read alike. -/
theorem readStack_congr {s t : State} (h : t.stack = s.stack) (k : Fin 16) : t.readStack k = s.readStack k := by
  unfold State.readStack; rw [h]

end setField

/-! ### Raising a fatal condition -/

section raise
variable (s : State) (kind : FatalKind) (a : Addr) (w : Option Word) (op : Word)

@[simp] theorem raise_mem : (s.raise kind a w).mem = s.mem := rfl
@[simp] theorem raise_v : (s.raise kind a w).v = s.v := rfl
@[simp] theorem raise_pc : (s.raise kind a w).pc = s.pc := rfl
@[simp] theorem raise_stack : (s.raise kind a w).stack = s.stack := rfl
@[simp] theorem raise_sp : (s.raise kind a w).sp = s.sp := rfl
@[simp] theorem raise_readReg (j : RegIdx) : (s.raise kind a w).readReg j = s.readReg j := rfl
@[simp] theorem raise_readStack (k : Fin 16) : (s.raise kind a w).readStack k = s.readStack k := rfl
@[simp] theorem raise_status : (s.raise kind a w).status = .faulted kind a w := rfl

@[simp] theorem raiseHere_mem : (s.raiseHere kind op).mem = s.mem := rfl
@[simp] theorem raiseHere_v : (s.raiseHere kind op).v = s.v := rfl
@[simp] theorem raiseHere_pc : (s.raiseHere kind op).pc = s.pc := rfl
@[simp] theorem raiseHere_stack : (s.raiseHere kind op).stack = s.stack := rfl
@[simp] theorem raiseHere_sp : (s.raiseHere kind op).sp = s.sp := rfl
@[simp] theorem raiseHere_readReg (j : RegIdx) : (s.raiseHere kind op).readReg j = s.readReg j := rfl
@[simp] theorem raiseHere_readStack (k : Fin 16) : (s.raiseHere kind op).readStack k = s.readStack k := rfl
@[simp] theorem raiseHere_status : (s.raiseHere kind op).status = .faulted kind (s.pc - 2#16) (some op) := rfl

end raise

/-! ### The ALU's two shapes of write -/

section alu
variable (s : State) (f flag : Byte → Byte → Byte) (x y : RegIdx)

@[simp] theorem aluPlain_mem : (s.aluPlain f x y).mem = s.mem := rfl
@[simp] theorem aluPlain_pc : (s.aluPlain f x y).pc = s.pc := rfl
@[simp] theorem aluPlain_stack : (s.aluPlain f x y).stack = s.stack := rfl
@[simp] theorem aluPlain_readStack (k : Fin 16) : (s.aluPlain f x y).readStack k = s.readStack k := rfl
@[simp] theorem aluPlain_sp : (s.aluPlain f x y).sp = s.sp := rfl
@[simp] theorem aluPlain_status : (s.aluPlain f x y).status = s.status := rfl

@[simp] theorem readReg_aluPlain (j : RegIdx) :
    (s.aluPlain f x y).readReg j = if x = j then f (s.readReg x) (s.readReg y) else s.readReg j :=
  readReg_writeReg s x _ j

@[simp] theorem aluFlagged_mem : (s.aluFlagged f flag x y).mem = s.mem := rfl
@[simp] theorem aluFlagged_pc : (s.aluFlagged f flag x y).pc = s.pc := rfl
@[simp] theorem aluFlagged_stack : (s.aluFlagged f flag x y).stack = s.stack := rfl
@[simp] theorem aluFlagged_readStack (k : Fin 16) : (s.aluFlagged f flag x y).readStack k = s.readStack k := rfl
@[simp] theorem aluFlagged_sp : (s.aluFlagged f flag x y).sp = s.sp := rfl
@[simp] theorem aluFlagged_status : (s.aluFlagged f flag x y).status = s.status := rfl

/-- The flag is written last: it is what `V[15]` holds even when `x = 15` (R88). -/
@[simp] theorem readReg_aluFlagged (j : RegIdx) :
    (s.aluFlagged f flag x y).readReg j =
      if 15 = j then flag (s.readReg x) (s.readReg y)
      else if x = j then f (s.readReg x) (s.readReg y) else s.readReg j := by
  simp [State.aluFlagged, State.aluOperands]

end alu

/-! ### The launch state -/

section launch
variable (m : Memory) (v : RegFile) (k : CallStack)

@[simp] theorem launch_mem : (State.launch m v k).mem = m := rfl
@[simp] theorem launch_v : (State.launch m v k).v = v := rfl
@[simp] theorem launch_pc : (State.launch m v k).pc = 0#16 := rfl
@[simp] theorem launch_stack : (State.launch m v k).stack = k := rfl
@[simp] theorem launch_sp : (State.launch m v k).sp = 0 := rfl
@[simp] theorem launch_status : (State.launch m v k).status = .running := rfl

end launch

end Sys2Proof.Machine
end

