-- ==== Sys2Proof/Laws/Ops.lean ====
section
/-! SUPPORT. What each shared operation can do, said once: the stack's push and pop, the fetch, and the handlers that
may raise a fatal condition. Later proofs cite these and do not unfold the operations. -/

namespace Sys2Proof.Machine

/-! ### Push and pop -/

/-- A push that has room: the slot at `sp` holds the value, `sp` is one more, and nothing else changes. -/
theorem push_eq_some {s t : State} {a : Addr} (h : s.push a = some t) :
    s.sp.val < 16 ∧ t.sp.val = s.sp.val + 1 ∧ (∀ k : Fin 16, t.readStack k = if k.val = s.sp.val then a else s.readStack k) ∧
      t.mem = s.mem ∧ t.v = s.v ∧ t.pc = s.pc ∧ t.status = s.status := by
  unfold State.push at h
  split at h
  · next hlt =>
    obtain rfl := Option.some.inj h
    refine ⟨hlt, rfl, fun k => ?_, rfl, rfl, rfl, rfl⟩
    simp [State.readStack, Vector.getElem_set, eq_comm]
  · exact absurd h (by simp)

/-- A push finds no room exactly at the capacity. -/
theorem push_eq_none {s : State} {a : Addr} : s.push a = none ↔ s.sp.val = 16 := by
  unfold State.push
  have := s.sp.isLt
  split <;> simp <;> omega

/-- A pop of a stack that is not empty: `sp` is one less, the value is the slot's at the new `sp`, and nothing else
changes, the slot included. -/
theorem pop_eq_some {s t : State} {a : Addr} (h : s.pop = some (a, t)) :
    0 < s.sp.val ∧ t.sp.val = s.sp.val - 1 ∧ (∀ k : Fin 16, k.val + 1 = s.sp.val → a = s.readStack k) ∧
      t.stack = s.stack ∧ t.mem = s.mem ∧ t.v = s.v ∧ t.pc = s.pc ∧ t.status = s.status := by
  unfold State.pop at h
  split at h
  · next hlt =>
    obtain ⟨rfl, rfl⟩ := Prod.mk.inj (Option.some.inj h)
    refine ⟨hlt, rfl, fun k hk => ?_, rfl, rfl, rfl, rfl, rfl⟩
    simp [State.readStack, ← hk]
  · exact absurd h (by simp)

/-- A pop finds nothing exactly when `sp` is 0. -/
theorem pop_eq_none {s : State} : s.pop = none ↔ s.sp.val = 0 := by
  unfold State.pop
  split <;> simp <;> omega

/-! ### The fetch -/

/-- A fetch that succeeds: `pc` is at most 4094, the word is the two bytes there, the high one first, and only `pc`
changes. -/
theorem fetch_eq_word {s s' : State} {op : Word} (h : fetch s = .word op s') :
    s.pc.toNat ≤ 4094 ∧ s' = { s with pc := s.pc + 2#16 } ∧
      ∃ hi lo, s.mem.read s.pc.toNat = some hi ∧ s.mem.read (s.pc.toNat + 1) = some lo ∧ op = compose hi lo := by
  unfold fetch at h
  split at h
  · exact absurd h (by simp)
  · next hb =>
    split at h
    · next hi lo hhi hlo =>
      injection h with h₁ h₂
      exact ⟨by simp only [Config.memSize] at hb; omega, h₂.symm, hi, lo, hhi, hlo, h₁.symm⟩
    all_goals exact absurd h (by simp)

/-- A fetch is out of bounds exactly when `pc` is greater than 4094. -/
theorem fetch_eq_outOfBounds {s : State} : fetch s = .outOfBounds ↔ 4094 < s.pc.toNat := by
  unfold fetch
  split
  · next h => simp only [Config.memSize] at h; simp; omega
  · next h =>
    simp only [Config.memSize] at h
    split <;> simp <;> omega

/-- A fetch that lacks a byte names an address of its word that the memory does not list. -/
theorem fetch_eq_unloaded {s : State} {a : Nat} (h : fetch s = .unloaded a) :
    s.pc.toNat ≤ 4094 ∧ (a = s.pc.toNat ∨ a = s.pc.toNat + 1) ∧ s.mem.read a = none := by
  unfold fetch at h
  split at h
  · exact absurd h (by simp)
  · next hb =>
    simp only [Config.memSize] at hb
    split at h
    · exact absurd h (by simp)
    · next hn => injection h with h; subst h; exact ⟨by omega, .inl rfl, hn⟩
    · next hn => injection h with h; subst h; exact ⟨by omega, .inr rfl, hn⟩

/-- After a fetch the handler finds the address fetched from the advanced `pc` (R23, R63). -/
theorem instrAddr_fetched (s : State) : ({ s with pc := s.pc + 2#16 } : State).instrAddr = s.pc := by
  simp [State.instrAddr]

/-! ### What a handler can do -/

/-- CALL either pushes the `pc` and jumps, or raises StackOverflow. -/
theorem execCall_cases (nnn : Addr12) (s : State) :
    (∃ s', s.push s.pc = some s' ∧ execCall nnn s = .next { s' with pc := callTarget nnn }) ∨
      (s.push s.pc = none ∧ execCall nnn s = .next (s.raiseHere .stackOverflow (encode (.call nnn)))) := by
  unfold execCall
  split
  · next s' h => exact .inl ⟨s', h, rfl⟩
  · next h => exact .inr ⟨h, rfl⟩

/-- RET either pops into `pc`, or raises StackUnderflow. -/
theorem execRet_cases (s : State) :
    (∃ a s', s.pop = some (a, s') ∧ execRet s = .next { s' with pc := a }) ∨
      (s.pop = none ∧ execRet s = .next (s.raiseHere .stackUnderflow (encode .ret))) := by
  unfold execRet
  split
  · next a s' h => exact .inl ⟨a, s', h, rfl⟩
  · next h => exact .inr ⟨h, rfl⟩

end Sys2Proof.Machine
end

