-- ==== Sys2Proof/Laws/PerInstr.lean ====
section
/-! SUPPORT. The family EncodedInRow: an instruction's word matches the row of the opcode table that has its mnemonic
(30_encoding.md R55), and the instruction is well formed (R53, R60). One lemma per constructor. -/

namespace Sys2Proof.Laws.EncodedInRow

/-- Some row with the instruction's mnemonic accepts its word, and its operands are ones R60 admits. -/
def Statement (i : Instr) : Prop :=
  (∃ r ∈ opcodeTable, r.mnemonic = i.mnemonic ∧ r.accepts (encode i) = true) ∧ i.wellFormed = true

/-- The bits of a word of format XY that the mask of its row keeps. -/
theorem encodeXY_masked (x y : RegIdx) (d : Word) (h : d &&& 0x000F#16 = d) :
    encodeXY x y d &&& 0xF00F#16 = 0x8000#16 ||| d := by
  have hx : BitVec.ofNat 16 x.val = (BitVec.ofNat 4 x.val).setWidth 16 := by
    apply BitVec.eq_of_toNat_eq; simp
  have hy : BitVec.ofNat 16 y.val = (BitVec.ofNat 4 y.val).setWidth 16 := by
    apply BitVec.eq_of_toNat_eq; simp
  unfold encodeXY
  rw [hx, hy]
  rw [← h]
  generalize BitVec.ofNat 4 x.val = a
  generalize BitVec.ofNat 4 y.val = b
  ext i hi
  simp only [BitVec.getElem_and, BitVec.getElem_or, BitVec.getElem_shiftLeft]
  interval_cases i <;> simp

theorem wellFormed_xy (x y : RegIdx) : (regOperandOk x.val && regOperandOk y.val) = true := by
  simp [regOperandOk]

theorem halt : Statement .halt := ⟨⟨⟨"HALT", 0x0000#16, 0xFFFF#16⟩, by decide, by decide, by decide⟩, rfl⟩

theorem ret : Statement .ret := ⟨⟨⟨"RET", 0x00EE#16, 0xFFFF#16⟩, by decide, by decide, by decide⟩, rfl⟩

theorem call (nnn : Addr12) : Statement (.call nnn) := by
  refine ⟨⟨⟨"CALL", 0x2000#16, 0xF000#16⟩, by decide, rfl, ?_⟩, ?_⟩
  · simp only [OpcodeRow.accepts, encode, beq_iff_eq]
    ext i hi
    simp only [BitVec.getElem_and, BitVec.getElem_or]
    interval_cases i <;> simp
  · have := nnn.isLt
    simpa [Instr.wellFormed, Instr.toAsm, AsmLine.wellFormed, callOperandOk] using this

theorem or (x y : RegIdx) : Statement (.or x y) :=
  ⟨⟨⟨"OR", 0x8001#16, 0xF00F#16⟩, by decide, rfl, by
    simp only [OpcodeRow.accepts, encode, beq_iff_eq]; exact encodeXY_masked x y _ (by decide)⟩, wellFormed_xy x y⟩

theorem and (x y : RegIdx) : Statement (.and x y) :=
  ⟨⟨⟨"AND", 0x8002#16, 0xF00F#16⟩, by decide, rfl, by
    simp only [OpcodeRow.accepts, encode, beq_iff_eq]; exact encodeXY_masked x y _ (by decide)⟩, wellFormed_xy x y⟩

theorem add (x y : RegIdx) : Statement (.add x y) :=
  ⟨⟨⟨"ADD", 0x8004#16, 0xF00F#16⟩, by decide, rfl, by
    simp only [OpcodeRow.accepts, encode, beq_iff_eq]; exact encodeXY_masked x y _ (by decide)⟩, wellFormed_xy x y⟩

theorem sub (x y : RegIdx) : Statement (.sub x y) :=
  ⟨⟨⟨"SUB", 0x8005#16, 0xF00F#16⟩, by decide, rfl, by
    simp only [OpcodeRow.accepts, encode, beq_iff_eq]; exact encodeXY_masked x y _ (by decide)⟩, wellFormed_xy x y⟩

end Sys2Proof.Laws.EncodedInRow
end

