-- ==== Sys2Proof/Laws/Step.lean ====
section
/-! SUPPORT. What a step can do, said once. -/

namespace Sys2Proof.Machine

/-- Every way a step answers. -/
theorem stepWith_cases (p : UnimplPolicy) (s : State) :
    (s.status ≠ .running ∧ stepWith p s = .next s) ∨
    (s.status = .running ∧ fetch s = .outOfBounds ∧
      stepWith p s = .next (s.raise .outOfBoundsMemoryAccess s.pc none)) ∨
    (∃ a, s.status = .running ∧ fetch s = .unloaded a ∧ stepWith p s = .fault (.unloadedByte a)) ∨
    (∃ op s' i, s.status = .running ∧ fetch s = .word op s' ∧ decode op = .instr i ∧ stepWith p s = exec i s') ∨
    (∃ op s' bad, s.status = .running ∧ fetch s = .word op s' ∧ decode op = .unimplemented bad ∧
      stepWith p s = execUnimplemented p bad s') := by
  unfold stepWith
  split
  · next h => exact .inl ⟨by simp [h], rfl⟩
  · next h => exact .inl ⟨by simp [h], rfl⟩
  · next h =>
    split
    · next hf => exact .inr (.inl ⟨h, hf, rfl⟩)
    · next a hf => exact .inr (.inr (.inl ⟨a, h, hf, rfl⟩))
    · next op s' hf =>
      split
      · next i hd => exact .inr (.inr (.inr (.inl ⟨op, s', i, h, hf, hd, rfl⟩)))
      · next bad hd => exact .inr (.inr (.inr (.inr ⟨op, s', bad, h, hf, hd, rfl⟩)))

/-- A word that decodes to nothing is reported as itself (R57). -/
theorem decode_eq_unimplemented {op bad : Word} (h : decode op = .unimplemented bad) : bad = op := by
  unfold decode at h
  repeat' split at h
  all_goals (cases h <;> rfl)

theorem runWith_zero (p : UnimplPolicy) (s : State) : runWith p 0 s = .next s := rfl

/-- One turn of the run loop (R67). -/
theorem runWith_succ (p : UnimplPolicy) (k : Nat) {s t : State} (h : stepWith p s = .next t) :
    runWith p (k + 1) s = if t.status = .running then runWith p k t else .next t := by
  simp [runWith, h]

/-! ### Placing a word where the next fetch reads -/

/-- Placing a word changes memory at most: it is the word's two writes, or nothing where `pc > 4094`. -/
theorem withFetchWord_cases (s : State) (nbits w : Nat) :
    (∃ m, s.mem.writeWord s.pc.toNat (tableWord nbits w) = some m ∧ s.withFetchWord nbits w = { s with mem := m }) ∨
      (s.mem.writeWord s.pc.toNat (tableWord nbits w) = none ∧ s.withFetchWord nbits w = s) := by
  unfold State.withFetchWord
  split
  · next m h => exact .inl ⟨m, h, rfl⟩
  · next h => exact .inr ⟨h, rfl⟩

/-- Placing a word keeps the canonical form of memory. -/
theorem wf_withFetchWord {s : State} (h : s.mem.wf) (nbits w : Nat) : (s.withFetchWord nbits w).mem.wf := by
  rcases withFetchWord_cases s nbits w with ⟨m, hm, e⟩ | ⟨-, e⟩
  · rw [e]; exact Memory.wf_writeWord h hm
  · rw [e]; exact h

end Sys2Proof.Machine
end

