-- ==== Sys2Proof/Tests/Slice0.lean ====
section
/-! SUPPORT. The model's own tests: the smoke test of the well-formedness checks, words written out bit by bit, the
spec's worked examples (95_test_vectors.md, L1 and L2) one step each, and a witness for the hypotheses of each statement
in Certificates/Slice0/Obligations.lean. -/

namespace Sys2Proof.Tests

open Sys2Proof Sys2Proof.Machine

/-! ### Helpers -/

/-- The next state of an answer, if it is one. -/
def nextOf : Result → Option State
  | .next t => some t
  | .fault _ => none
  | .refused _ => none

theorem next_of_nextOf {r : Result} {t : State} (h : nextOf r = some t) : r = .next t := by
  cases r with
  | next u => exact congrArg _ (Option.some.inj h)
  | fault _ => exact absurd h (by simp [nextOf])
  | refused _ => exact absurd h (by simp [nextOf])

/-- A running state with two bytes of memory at `pc`, an empty stack and every register 0. -/
def at2 (pc : Addr) (h l : Byte) : State :=
  { State.reset with mem := [(pc.toNat, h), (pc.toNat + 1, l)], pc := pc }

/-- The state with the stack full, its lowest entry 2. -/
def full (s : State) : State := { s with stack := (Vector.replicate 16 0#16).set 0 2#16, sp := 16 }

/-- The state with one return address on the stack. -/
def one (s : State) (a : Addr) : State := { s with stack := (Vector.replicate 16 0#16).set 0 a, sp := 1 }

/-- The state one step later under FATAL, or the same state where there is none. -/
def after (s : State) : State := (nextOf (step s)).getD s

/-! ### Well-formedness: each check refuses an ill-formed term -/

theorem test_regOperandOk_refuses_16 : regOperandOk 16 = false ∧ regOperandOk 15 = true := by decide
theorem test_callOperandOk_refuses_0x1000 : callOperandOk 0x1000 = false ∧ callOperandOk 0xFFF = true := by decide
theorem test_wordOperandOk_refuses_0x10000 : wordOperandOk 0x10000 = false ∧ wordOperandOk 0xFFFF = true := by decide
theorem test_illformed_lines_refused :
    [AsmLine.call 0x1000, .or 16 0, .or 0 16, .and 16 0, .and 0 16, .add 16 0, .add 0 16, .sub 16 0, .sub 0 16,
      .word 0x10000].all (fun l => !l.wellFormed && (assemble l).isNone) = true := by decide

/-! ### Words written out from the encodings of 30_encoding.md R50, R55 -/

theorem test_decode_halt : decode 0b0000000000000000#16 = .instr .halt := by decide
theorem test_decode_ret : decode 0b0000000011101110#16 = .instr .ret := by decide
theorem test_decode_call : decode 0b0010101010110100#16 = .instr (.call 0xAB4#12) := by decide
theorem test_decode_or : decode 0b1000101001010001#16 = .instr (.or 10 5) := by decide
theorem test_decode_and : decode 0b1000001000110010#16 = .instr (.and 2 3) := by decide
theorem test_decode_add : decode 0b1000101010110100#16 = .instr (.add 10 11) := by decide
theorem test_decode_sub : decode 0b1000111100010101#16 = .instr (.sub 15 1) := by decide
theorem test_decode_clear_screen_is_illegal : decode 0x00E0#16 = .unimplemented 0x00E0#16 := by decide
theorem test_decodeBytes_rejects_by_name :
    decodeBytes [0x51#8, 0x23#8] = .error (.unimplementedOpcode 0x5123#16) ∧ decodeBytes [0x51#8] = .error .truncated ∧
      decodeBytes [0x00#8, 0xEE#8, 0x01#8] = .ok (.ret, [0x01#8]) := by decide
theorem test_decodeTableWord : decodeTableWord 16 0x8014 = some (.add 0 1) ∧ decodeTableWord 16 0x5123 = none := by decide
theorem test_decompose : decompose 0xD93E#16 = (0xD9#8, 0x3E#8) := by decide
theorem test_assemble_call : assemble (.call 0x100) = some 0x2100#16 := by decide
theorem test_text : (Instr.sub 0 15).toAsm.text = "SUB V0, VF" ∧ (Instr.call 0x10#12).toAsm.text = "CALL 0x010" := by
  decide

/-! ### One step each, from 95_test_vectors.md -/

/-- L2, engine: HALT at 4094 leaves `pc = 4096`. -/
theorem test_halt_at_4094 :
    (nextOf (step (at2 4094#16 0x00#8 0x00#8))).map (fun t => (t.status, t.pc)) = some (.halted, 4096#16) := by decide

/-- L2, control flow: `pc = 0x100`, `sp = 1`, `stack[0] = 2`, RET; the slot is kept. -/
theorem test_ret : (nextOf (step (one (at2 0x100#16 0x00#8 0xEE#8) 2#16))).map
    (fun t => (t.pc, t.sp, t.readStack 0, t.status)) = some (2#16, 0, 2#16, .running) := by decide

/-- L2, control flow: RET at `sp = 0`. -/
theorem test_ret_underflow : (nextOf (step (at2 0#16 0x00#8 0xEE#8))).map (fun t => (t.pc, t.sp, t.status)) =
    some (2#16, 0, .faulted .stackUnderflow 0#16 (some 0x00EE#16)) := by decide

/-- L2, control flow: CALL at 4094 pushes 4096. -/
theorem test_call_at_4094 : (nextOf (step (at2 4094#16 0x20#8 0x10#8))).map
    (fun t => (t.pc, t.sp, t.readStack 0, t.status)) = some (0x010#16, 1, 4096#16, .running) := by decide

/-- L2, control flow: CALL with `sp = 16` at 0x200. -/
theorem test_call_overflow : (nextOf (step (full (at2 0x200#16 0x23#8 0x00#8)))).map (fun t => (t.pc, t.sp, t.status)) =
    some (0x202#16, 16, .faulted .stackOverflow 0x200#16 (some 0x2300#16)) := by decide

/-- W5's first instruction: OR V0, V1; VF unchanged. -/
theorem test_or : (nextOf (step ((((at2 0#16 0x80#8 0x11#8).writeReg 0 0b0110#8).writeReg 1 0b1010#8).writeReg 15 0x42#8))).map
    (fun t => (t.readReg 0, t.readReg 15, t.pc)) = some (0b1110#8, 0x42#8, 2#16) := by decide

/-- L2, aliasing: OR VF, V1. -/
theorem test_or_vf : (nextOf (step (((at2 0#16 0x8F#8 0x11#8).writeReg 15 0x0F#8).writeReg 1 0xF0#8))).map
    (fun t => t.readReg 15) = some 0xFF#8 := by decide

/-- W5's second instruction: AND V2, V3. -/
theorem test_and : (nextOf (step ((((at2 0#16 0x82#8 0x32#8).writeReg 2 0b1101#8).writeReg 3 0b0011#8).writeReg 15 0x42#8))).map
    (fun t => (t.readReg 2, t.readReg 3, t.readReg 15)) = some (0b0001#8, 0b0011#8, 0x42#8) := by decide

/-- W3: 120 + 250. -/
theorem test_add_overflow : (nextOf (step (((at2 0#16 0x80#8 0x14#8).writeReg 0 120#8).writeReg 1 250#8))).map
    (fun t => (t.readReg 0, t.readReg 1, t.readReg 15)) = some (114#8, 250#8, 1#8) := by decide

/-- L2, aliasing: ADD VF, V1 with 200 and 100: the flag remains, the sum 44 is lost. -/
theorem test_add_into_vf : (nextOf (step (((at2 0#16 0x8F#8 0x14#8).writeReg 15 200#8).writeReg 1 100#8))).map
    (fun t => t.readReg 15) = some 1#8 := by decide

/-- W4: 10 - 15. -/
theorem test_sub_underflow : (nextOf (step (((at2 0#16 0x80#8 0x15#8).writeReg 0 10#8).writeReg 1 15#8))).map
    (fun t => (t.readReg 0, t.readReg 1, t.readReg 15)) = some (251#8, 15#8, 1#8) := by decide

/-- L2, aliasing: SUB V0, VF with 0 and 1. -/
theorem test_sub_from_vf : (nextOf (step ((at2 0#16 0x80#8 0xF5#8).writeReg 15 1#8))).map
    (fun t => (t.readReg 0, t.readReg 15)) = some (255#8, 1#8) := by decide

/-- W8 and P9: the word 0x5123 under FATAL and under SKIP. -/
theorem test_illegal_word : (nextOf (stepWith .fatal (at2 0#16 0x51#8 0x23#8))).map (fun t => (t.pc, t.status)) =
      some (2#16, .faulted .unimplementedOpcode 0#16 (some 0x5123#16)) ∧
    (nextOf (stepWith .skip (at2 0#16 0x51#8 0x23#8))).map (fun t => (t.pc, t.status)) = some (2#16, .running) := by
  decide

/-- L2, engine: a fetch at 4095, first byte in bounds. -/
theorem test_fetch_at_4095 : (nextOf (step (at2 4095#16 0x00#8 0x00#8))).map (fun t => (t.pc, t.status)) =
    some (4095#16, .faulted .outOfBoundsMemoryAccess 4095#16 none) := by decide

/-- L2, engine: an odd `pc` fetches like any other, here the illegal word 0x014F. -/
theorem test_odd_fetch : (nextOf (step (at2 1#16 0x01#8 0x4F#8))).map (fun t => (t.pc, t.status)) =
    some (3#16, .faulted .unimplementedOpcode 1#16 (some 0x014F#16)) := by decide

/-- Entry 2: a byte of the image that the state does not list stops the model by name. -/
theorem test_unloaded : step State.reset = .fault (.unloadedByte 0) := by rfl

/-- Entry 5: a placed word is the first instruction after reset. -/
theorem test_withFetchWord : (nextOf (step (State.reset.withFetchWord 16 0x2100))).map
    (fun t => (t.pc, t.sp, t.readStack 0)) = some (0x100#16, 1, 2#16) := by decide

/-- The loader places words one after another, high byte first; words that do not fit are refused. -/
theorem test_loadWords : Memory.loadWords [] 0 [0x8014#16, 0x0000#16] =
      some [(0, 0x80#8), (1, 0x14#8), (2, 0x00#8), (3, 0x00#8)] ∧ Memory.loadWords [] 4095 [0x0000#16] = none := by decide

/-- P1's last steps as a run: RET is followed by HALT, and the run ends there. -/
theorem test_run : (nextOf (runWith .fatal 9 (one { at2 0x104#16 0x00#8 0xEE#8 with
      mem := [(4, 0x00#8), (5, 0x00#8), (0x104, 0x00#8), (0x105, 0xEE#8)] } 4#16))).map
    (fun t => (t.status, t.pc, t.sp, t.readStack 0)) = some (.halted, 6#16, 0, 4#16) := by decide

/-! ### Witnesses: concrete states and operands that meet the hypotheses of the statements -/

/-- An image of zeros, as an example of a whole image. -/
def zeroImage : MemImage := Vector.replicate 4096 0#8

theorem zeroImage_complete : (Memory.ofImage zeroImage).Complete :=
  fun a ha => ⟨_, Memory.read_ofImage zeroImage ⟨a, ha⟩⟩

/-- A running state with a whole image. -/
def withImage : State := State.launch (Memory.ofImage zeroImage) State.reset.v State.reset.stack

theorem withImage_complete : withImage.mem.Complete := by
  rw [withImage, launch_mem]; exact zeroImage_complete

theorem withImage_running : withImage.status = .running := by rw [withImage, launch_status]

theorem executes_of {p : UnimplPolicy} {s s' t : State} {op : Word} {i : Instr} (hr : s.status = .running)
    (hf : fetch s = .word op s') (hd : decode op = .instr i) (hs : nextOf (stepWith p s) = some t) :
    Executes p s i t :=
  ⟨hr, ⟨op, s', hf, hd⟩, next_of_nextOf hs⟩

theorem witness_CodecRoundTrip :
    fetch (at2 4094#16 0x80#8 0x14#8) = .word 0x8014#16 { at2 4094#16 0x80#8 0x14#8 with pc := 4096#16 } := by decide

theorem witness_DecodeFollowsItsListing :
    8 = (0x8AB4#16).toNat / 4096 ∧ (10 : RegIdx).val = (0x8AB4#16).toNat / 256 % 16 ∧
      (11 : RegIdx).val = (0x8AB4#16).toNat / 16 % 16 ∧ 4 = (0x8AB4#16).toNat % 16 ∧
      (0xAB4#12).toNat = (0x8AB4#16).toNat % 4096 := by decide

theorem witness_AssemblerAcceptsExactlyOperandsInRange : assemble (.word 0xFFFF) = some 0xFFFF#16 := by decide

theorem witness_StoredWordIsFetchedBigEndian :
    (4094 ≤ 4094 ∧ Memory.writeWord [] 4094 0x8014#16 = some (at2 4094#16 0x80#8 0x14#8).mem) ∧
      (at2 4094#16 0x80#8 0x14#8).pc.toNat = 4094 ∧
      fetch (at2 4094#16 0x80#8 0x14#8) = .word 0x8014#16 { at2 4094#16 0x80#8 0x14#8 with pc := 4096#16 } ∧
      stepWith .fatal (at2 4094#16 0x80#8 0x14#8) = .next (after (at2 4094#16 0x80#8 0x14#8)) :=
  ⟨by decide, by decide, by decide, next_of_nextOf (by decide)⟩

theorem witness_CanonicalMemoriesThatReadAlikeAreEqual :
    Memory.wf [(0, 1#8), (4095, 2#8)] ∧ ∀ a, Memory.read [(0, 1#8), (4095, 2#8)] a = Memory.read [(0, 1#8), (4095, 2#8)] a :=
  ⟨by decide, fun _ => rfl⟩

theorem witness_FetchPastEndRaisesOutOfBounds :
    (at2 4095#16 0#8 0#8).status = .running ∧ 4094 < (at2 4095#16 0#8 0#8).pc.toNat ∧
      (at2 4096#16 0#8 0#8).status = .running ∧ 4094 < (at2 4096#16 0#8 0#8).pc.toNat := by decide

theorem witness_CallWithRoomPushesAndJumps : ({ State.reset with sp := 15 } : State).sp.val < 16 := by decide

theorem witness_RetWithEntryPopsIntoPc :
    (15 : Fin 16).val + 1 = (full State.reset).sp.val ∧ (0 : Fin 16).val + 1 = (one State.reset 2#16).sp.val := by decide

theorem witness_AluResultsDependOnOperandsOnly :
    (State.reset.writeReg 3 7#8).readReg 0 = State.reset.readReg 0 ∧
      (State.reset.writeReg 3 7#8).readReg 15 = State.reset.readReg 15 ∧ State.reset.writeReg 3 7#8 ≠ State.reset := by
  decide

theorem witness_ResultAndFlagAreExact : (14 : RegIdx) ≠ 15 ∧ (0 : RegIdx) ≠ 15 := by decide

theorem witness_StepRunsTheDecodedInstruction :
    (at2 4094#16 0x80#8 0x14#8).status = .running ∧ (at2 4094#16 0x80#8 0x14#8).pc.toNat ≤ 4094 ∧
      (at2 4094#16 0x80#8 0x14#8).mem.read (at2 4094#16 0x80#8 0x14#8).pc.toNat = some 0x80#8 ∧
      (at2 4094#16 0x80#8 0x14#8).mem.read ((at2 4094#16 0x80#8 0x14#8).pc.toNat + 1) = some 0x14#8 ∧
      decode (compose 0x80#8 0x14#8) = .instr (.add 0 1) := by decide

theorem witness_PlacedWordIsTheNextInstruction :
    State.reset.status = .running ∧ State.reset.pc.toNat ≤ 4094 ∧ decodeTableWord 16 0x8014 = some (.add 0 1) := by decide

theorem witness_IllegalWordFaultsOrIsSkipped :
    (at2 1#16 0x51#8 0x23#8).status = .running ∧ (at2 1#16 0x51#8 0x23#8).pc.toNat ≤ 4094 ∧
      (at2 1#16 0x51#8 0x23#8).mem.read (at2 1#16 0x51#8 0x23#8).pc.toNat = some 0x51#8 ∧
      (at2 1#16 0x51#8 0x23#8).mem.read ((at2 1#16 0x51#8 0x23#8).pc.toNat + 1) = some 0x23#8 ∧
      decode (compose 0x51#8 0x23#8) = .unimplemented (compose 0x51#8 0x23#8) := by decide

theorem witness_CallOnFullStackRaisesOverflow :
    (full (at2 0#16 0x23#8 0x00#8)).status = .running ∧
      fetch (full (at2 0#16 0x23#8 0x00#8)) = .word 0x2300#16 { full (at2 0#16 0x23#8 0x00#8) with pc := 2#16 } ∧
      decode 0x2300#16 = .instr (.call 0x300#12) ∧ (full (at2 0#16 0x23#8 0x00#8)).sp.val = 16 := by decide

theorem witness_RetOnEmptyStackRaisesUnderflow :
    (at2 0#16 0x00#8 0xEE#8).status = .running ∧
      fetch (at2 0#16 0x00#8 0xEE#8) = .word 0x00EE#16 { at2 0#16 0x00#8 0xEE#8 with pc := 2#16 } ∧
      decode 0x00EE#16 = .instr .ret ∧ (at2 0#16 0x00#8 0xEE#8).sp.val = 0 := by decide

/-- A CALL with room, a RET with an entry, and one instruction that leaves the advanced `pc`; and a failed fetch. -/
theorem witness_PcAfterEachInstruction :
    (Executes .fatal (at2 4094#16 0x2F#8 0xFF#8) (.call 0xFFF#12) (after (at2 4094#16 0x2F#8 0xFF#8)) ∧
      (at2 4094#16 0x2F#8 0xFF#8).sp.val < 16) ∧
    (Executes .fatal (full (at2 0#16 0x00#8 0xEE#8)) .ret (after (full (at2 0#16 0x00#8 0xEE#8))) ∧
      (15 : Fin 16).val + 1 = (full (at2 0#16 0x00#8 0xEE#8)).sp.val) ∧
    Executes .fatal (at2 0#16 0x00#8 0x00#8) .halt (after (at2 0#16 0x00#8 0x00#8)) ∧
    Executes .fatal (at2 0#16 0x80#8 0x15#8) (.sub 0 1) (after (at2 0#16 0x80#8 0x15#8)) ∧
    ((at2 4095#16 0#8 0#8).status = .running ∧ fetch (at2 4095#16 0#8 0#8) = .outOfBounds ∧
      stepWith .fatal (at2 4095#16 0#8 0#8) = .next (after (at2 4095#16 0#8 0#8))) := by
  refine ⟨⟨executes_of (op := 0x2FFF#16) (s' := { at2 4094#16 0x2F#8 0xFF#8 with pc := 4096#16 }) ?_ ?_ ?_ ?_, ?_⟩,
    ⟨executes_of (op := 0x00EE#16) (s' := { full (at2 0#16 0x00#8 0xEE#8) with pc := 2#16 }) ?_ ?_ ?_ ?_, ?_⟩,
    executes_of (op := 0x0000#16) (s' := { at2 0#16 0x00#8 0x00#8 with pc := 2#16 }) ?_ ?_ ?_ ?_,
    executes_of (op := 0x8015#16) (s' := { at2 0#16 0x80#8 0x15#8 with pc := 2#16 }) ?_ ?_ ?_ ?_, ?_, ?_,
    next_of_nextOf ?_⟩
  all_goals decide

theorem witness_TerminalStatusStays :
    ({ State.reset with status := .halted } : State).status ≠ .running ∧
      ({ State.reset with status := .faulted .stackUnderflow 0#16 (some 0x00EE#16) } : State).status ≠ .running := by decide

/-- One state for each way a step from RUNNING ends: HALTED, the four fatal conditions, RUNNING. -/
theorem witness_StatusAfterAStep :
    ∀ s ∈ [at2 0#16 0x00#8 0x00#8, at2 4095#16 0#8 0#8, at2 0#16 0x51#8 0x23#8, full (at2 0#16 0x23#8 0x00#8),
      at2 0#16 0x00#8 0xEE#8, at2 0#16 0x80#8 0x14#8], s.status = .running ∧ stepWith .fatal s = .next (after s) := by
  have h : ∀ s ∈ [at2 0#16 0x00#8 0x00#8, at2 4095#16 0#8 0#8, at2 0#16 0x51#8 0x23#8, full (at2 0#16 0x23#8 0x00#8),
      at2 0#16 0x00#8 0xEE#8, at2 0#16 0x80#8 0x14#8], s.status = .running ∧ nextOf (stepWith .fatal s) = some (after s) := by
    decide
  exact fun s hs => ⟨(h s hs).1, next_of_nextOf (h s hs).2⟩

/-- A fetch fault at its lowest `pc`, and a fault of an instruction at the highest. -/
theorem witness_FaultsArePrecise :
    ((at2 4095#16 0#8 0#8).status = .running ∧ stepWith .fatal (at2 4095#16 0#8 0#8) = .next (after (at2 4095#16 0#8 0#8)) ∧
      (after (at2 4095#16 0#8 0#8)).status = .faulted .outOfBoundsMemoryAccess 4095#16 none) ∧
    ((at2 4094#16 0x00#8 0xEE#8).status = .running ∧
      stepWith .fatal (at2 4094#16 0x00#8 0xEE#8) = .next (after (at2 4094#16 0x00#8 0xEE#8)) ∧
      (after (at2 4094#16 0x00#8 0xEE#8)).status = .faulted .stackUnderflow 4094#16 (some 0x00EE#16)) := by
  refine ⟨⟨?_, next_of_nextOf ?_, ?_⟩, ?_, next_of_nextOf ?_, ?_⟩ <;> decide

/-- A step that answers a next state, and a run from `Reset` with a whole image that does (its first step is HALT). -/
theorem witness_NothingWritesMemory (s : State) :
    stepWith .fatal (at2 0#16 0x80#8 0x14#8) = .next (after (at2 0#16 0x80#8 0x14#8)) ∧
      ∃ t, runWith .fatal 1 (hostReset zeroImage State.reset.v State.reset.stack s) = .next t := by
  refine ⟨next_of_nextOf (by decide), ?_⟩
  rcases stepWith_cases .fatal (hostReset zeroImage State.reset.v State.reset.stack s) with
    ⟨_, h⟩ | ⟨_, _, h⟩ | ⟨a, _, hf, _⟩ | ⟨op, s', i, _, hf, hd, h⟩ | ⟨op, s', bad, _, hf, hd, h⟩
  · exact ⟨_, (runWith_succ _ _ h).trans (ite_self _)⟩
  · exact ⟨_, (runWith_succ _ _ h).trans (ite_self _)⟩
  · obtain ⟨hb, ha, hn⟩ := fetch_eq_unloaded hf
    obtain ⟨b, hb'⟩ := zeroImage_complete a (by simp only [Config.memSize]; omega)
    simp only [hostReset, launch_mem] at hn
    rw [hn] at hb'; cases hb'
  · cases he : exec i s' with
    | next t => exact ⟨t, (runWith_succ _ _ (h.trans he)).trans (ite_self _)⟩
    | fault f =>
      cases i with
      | call n => rcases execCall_cases n s' with ⟨_, _, e⟩ | ⟨_, e⟩ <;> exact absurd (e.symm.trans he) (by simp)
      | ret => rcases execRet_cases s' with ⟨_, _, _, e⟩ | ⟨_, e⟩ <;> exact absurd (e.symm.trans he) (by simp)
      | _ => exact absurd he (by simp [exec, execHalt, execOr, execAnd, execAdd, execSub])
    | refused r =>
      cases i with
      | call n => rcases execCall_cases n s' with ⟨_, _, e⟩ | ⟨_, e⟩ <;> exact absurd (e.symm.trans he) (by simp)
      | ret => rcases execRet_cases s' with ⟨_, _, _, e⟩ | ⟨_, e⟩ <;> exact absurd (e.symm.trans he) (by simp)
      | _ => exact absurd he (by simp [exec, execHalt, execOr, execAnd, execAdd, execSub])
  · exact ⟨_, (runWith_succ _ _ h).trans (ite_self _)⟩

/-- A register that an instruction changes: OR's destination, and ADD's flag. -/
theorem witness_RegistersEachInstructionMayWrite :
    (∃ t, exec (.or 0 1) (State.reset.writeReg 1 1#8) = .next t ∧ t.readReg 0 ≠ (State.reset.writeReg 1 1#8).readReg 0) ∧
    ∃ t, exec (.add 0 0) (State.reset.writeReg 0 0x80#8) = .next t ∧
      t.readReg 15 ≠ (State.reset.writeReg 0 0x80#8).readReg 15 :=
  ⟨⟨_, rfl, by decide⟩, ⟨_, rfl, by decide⟩⟩

/-- A CALL changes `sp` and the slot at `sp`, and HALT the status. -/
theorem witness_StackAndStatusEachInstructionMayWrite :
    (∃ t, exec (.call 0x300#12) { State.reset with pc := 2#16, sp := 15 } = .next t ∧ t.sp ≠ 15 ∧
      t.readStack 15 ≠ State.reset.readStack 15) ∧
    ∃ t, exec .halt State.reset = .next t ∧ t.status ≠ State.reset.status :=
  ⟨⟨_, rfl, by decide, by decide⟩, ⟨_, rfl, by decide⟩⟩

/-- Sixteen CALLs with an ADD among them, from an empty stack. -/
theorem witness_NestingDepthIsSixteen :
    Instr.ret ∉ Instr.add 0 1 :: List.replicate 16 (.call 0x100#12) ∧
      Instr.halt ∉ Instr.add 0 1 :: List.replicate 16 (.call 0x100#12) ∧
      State.reset.sp.val + (Instr.add 0 1 :: List.replicate 16 (.call 0x100#12)).countP (·.isCall) = 16 := by decide

/-- A whole image (this also meets the hypothesis of `EveryRunEnds`), and a state that stops for a missing byte. -/
theorem witness_StepStopsOnlyForAnUnloadedByte :
    withImage.mem.Complete ∧ stepWith .fatal State.reset = .fault (.unloadedByte 0) :=
  ⟨withImage_complete, rfl⟩

theorem witness_EveryRunEnds : withImage.mem.Complete ∧ withImage.status = .running :=
  ⟨withImage_complete, withImage_running⟩

/-- A state with the invariant, a live stack entry at each bound, and a step to a next state. -/
theorem witness_EveryStepKeepsTheInvariant :
    (one (at2 4094#16 0x20#8 0x10#8) 4096#16).Inv ∧
      stepWith .fatal (one (at2 4094#16 0x20#8 0x10#8) 4096#16) =
        .next (after (one (at2 4094#16 0x20#8 0x10#8) 4096#16)) := by
  refine ⟨⟨by decide, by decide, ?_, fun _ _ _ h => absurd h (by simp [one, at2, State.reset])⟩, next_of_nextOf (by decide)⟩
  unfold State.ReturnsOk
  decide

theorem witness_LaunchHasTheInvariant : Memory.wf [(0, 0x80#8), (1, 0x14#8)] := by decide

theorem witness_MoreFuelGivesTheSameEnd :
    runWith .fatal 1 (at2 0#16 0x00#8 0x00#8) = .next (after (at2 0#16 0x00#8 0x00#8)) ∧
      (after (at2 0#16 0x00#8 0x00#8)).status ≠ .running ∧ 1 ≤ 5 :=
  ⟨next_of_nextOf (by decide), by decide, by decide⟩

/-- A CALL to a subroutine that is a RET at once. -/
def callRet : State :=
  { State.reset with mem := [(0, 0x21#8), (1, 0x00#8), (0x100, 0x00#8), (0x101, 0xEE#8)] }

theorem witness_MatchedReturnResumesAfterTheCall :
    Executes .fatal callRet (.call 0x100#12) ((fun _ => after callRet) 0) ∧ callRet.sp.val < 16 ∧
      (∀ i, i < 0 → stepWith .fatal ((fun _ => after callRet) i) = .next ((fun _ => after callRet) (i + 1))) ∧
      (∀ i, i ≤ 0 → (after callRet).sp.val ≤ ((fun _ : Nat => after callRet) i).sp.val) ∧
      ((fun _ : Nat => after callRet) 0).sp = (after callRet).sp ∧
      Executes .fatal (after callRet) .ret (after (after callRet)) :=
  ⟨executes_of (op := 0x2100#16) (s' := { callRet with pc := 2#16 }) (by decide) (by decide) (by decide) (by decide),
    by decide, fun _ h => absurd h (Nat.not_lt_zero _), fun _ _ => Nat.le_refl _, rfl,
    executes_of (op := 0x00EE#16) (s' := { after callRet with pc := 0x102#16 }) (by decide) (by decide) (by decide)
      (by decide)⟩

theorem witness_StepReadsOnlyTheFetchedBytes :
    Memory.read [(0, 0x80#8), (1, 0x14#8), (9, 5#8)] (at2 0#16 0x80#8 0x14#8).pc.toNat =
        (at2 0#16 0x80#8 0x14#8).mem.read (at2 0#16 0x80#8 0x14#8).pc.toNat ∧
      Memory.read [(0, 0x80#8), (1, 0x14#8), (9, 5#8)] ((at2 0#16 0x80#8 0x14#8).pc.toNat + 1) =
        (at2 0#16 0x80#8 0x14#8).mem.read ((at2 0#16 0x80#8 0x14#8).pc.toNat + 1) ∧
      stepWith .fatal (at2 0#16 0x80#8 0x14#8) = .next (after (at2 0#16 0x80#8 0x14#8)) :=
  ⟨by decide, by decide, next_of_nextOf (by decide)⟩

/-- Two different states with the same live part, and a run of the first. -/
theorem witness_DeadStackSlotsAreUnobservable :
    (at2 0#16 0x00#8 0x00#8).SameLive { at2 0#16 0x00#8 0x00#8 with stack := Vector.replicate 16 7#16 } ∧
      runWith .fatal 3 (at2 0#16 0x00#8 0x00#8) = .next (after (at2 0#16 0x00#8 0x00#8)) :=
  ⟨⟨rfl, rfl, rfl, rfl, rfl, fun k hk => absurd hk (Nat.not_lt_zero _)⟩, next_of_nextOf (by decide)⟩

end Sys2Proof.Tests
end

section
/-! PROOFS. 20_memory.md R36: no step and no run changes memory. -/

namespace Sys2Proof.Machine

variable {p : UnimplPolicy} {s t : State}

/-! ### Runs -/

/-- A run that answers a next state made a first step, and ended with it or ran on from it. -/
theorem runWith_succ_eq_next {n : Nat} (h : runWith p (n + 1) s = .next t) :
    ∃ u, stepWith p s = .next u ∧ (t = u ∨ runWith p n u = .next t) := by
  cases hs : stepWith p s with
  | next u =>
    rw [runWith_succ p n hs] at h
    split at h
    · exact ⟨u, rfl, .inr h⟩
    · exact ⟨u, rfl, .inl (Host.Outcome.next.inj h).symm⟩
  | fault f => simp [runWith, hs] at h
  | refused r => simp [runWith, hs] at h

/-- What every step keeps, a run of any length keeps. -/
theorem runWith_keeps {P : State → Prop} (hstep : ∀ {s t : State}, stepWith p s = .next t → P s → P t) {n : Nat}
    (h : runWith p n s = .next t) (hs : P s) : P t := by
  induction n generalizing s with
  | zero => exact Host.Outcome.next.inj h ▸ hs
  | succ n ih =>
    obtain ⟨u, hu, rfl | hrun⟩ := runWith_succ_eq_next h
    · exact hstep hu hs
    · exact ih hrun (hstep hu hs)

/-! ### The memory after each part of a step -/

theorem execCall_mem {nnn : Addr12} (h : execCall nnn s = .next t) : t.mem = s.mem := by
  obtain ⟨s', hpush, e⟩ | ⟨-, e⟩ := execCall_cases nnn s
  · obtain ⟨-, -, -, hmem, -⟩ := push_eq_some hpush
    cases e.symm.trans h
    exact hmem
  · cases e.symm.trans h
    exact raiseHere_mem ..

theorem execRet_mem (h : execRet s = .next t) : t.mem = s.mem := by
  obtain ⟨a, s', hpop, e⟩ | ⟨-, e⟩ := execRet_cases s
  · obtain ⟨-, -, -, -, hmem, -⟩ := pop_eq_some hpop
    cases e.symm.trans h
    exact hmem
  · cases e.symm.trans h
    exact raiseHere_mem ..

/-- No handler writes memory. -/
theorem exec_mem {i : Instr} (h : exec i s = .next t) : t.mem = s.mem := by
  cases i with
  | halt => cases h; rfl
  | ret => exact execRet_mem h
  | call nnn => exact execCall_mem h
  | or x y => cases h; exact aluPlain_mem ..
  | and x y => cases h; exact aluPlain_mem ..
  | add x y => cases h; exact aluFlagged_mem ..
  | sub x y => cases h; exact aluFlagged_mem ..

theorem execUnimplemented_mem {op : Word} (h : execUnimplemented p op s = .next t) : t.mem = s.mem := by
  cases p with
  | fatal => cases h; exact raiseHere_mem ..
  | skip => cases h; rfl

theorem fetch_mem {op : Word} (h : fetch s = .word op t) : t.mem = s.mem := by
  obtain ⟨-, rfl, -⟩ := fetch_eq_word h
  rfl

/-- No step writes memory, whatever it fetches and whether it faults or not. -/
theorem stepWith_mem (h : stepWith p s = .next t) : t.mem = s.mem := by
  obtain ⟨-, e⟩ | ⟨-, -, e⟩ | ⟨a, -, -, e⟩ | ⟨op, s', i, -, hf, -, e⟩ | ⟨op, s', bad, -, hf, -, e⟩ :=
    stepWith_cases p s
  · cases e.symm.trans h; rfl
  · cases e.symm.trans h; exact raise_mem ..
  · cases e.symm.trans h
  · exact (exec_mem (e.symm.trans h)).trans (fetch_mem hf)
  · exact (execUnimplemented_mem (e.symm.trans h)).trans (fetch_mem hf)

theorem runWith_mem {n : Nat} (h : runWith p n s = .next t) : t.mem = s.mem :=
  runWith_keeps (P := fun u => u.mem = s.mem) (fun hstep hu => (stepWith_mem hstep).trans hu) h rfl

/-- Settles O31: the memory itself is the same after a step, so also after a run, and `Reset` leaves the image there. -/
theorem nothingWritesMemory : Obligations.NothingWritesMemory := by
  refine ⟨fun p s t h a => by rw [stepWith_mem h], fun p n img v k s t h a => ?_⟩
  have hmem : t.mem = Memory.ofImage img := (runWith_mem h).trans (launch_mem ..)
  rw [hmem, Memory.read_ofImage]

end Sys2Proof.Machine
end

section
/-! PROOFS. 30_encoding.md: the fields of a word as numbers (R50, R53), and the decoder's listing on them (R57). -/

namespace Sys2Proof

/-! ### The fields as numbers -/

section fields

variable (op : Word)

@[simp] theorem fieldC_toNat : (fieldC op).toNat = op.toNat / 4096 := by
  simp only [fieldC, BitVec.extractLsb'_toNat, Nat.shiftRight_eq_div_pow]
  omega

@[simp] theorem fieldX_val : (fieldX op).val = op.toNat / 256 % 16 := by
  simp [fieldX, Nat.shiftRight_eq_div_pow]

@[simp] theorem fieldY_val : (fieldY op).val = op.toNat / 16 % 16 := by
  simp [fieldY, Nat.shiftRight_eq_div_pow]

@[simp] theorem fieldD_toNat : (fieldD op).toNat = op.toNat % 16 := by
  simp [fieldD, BitVec.extractLsb'_toNat]

@[simp] theorem fieldNNN_toNat : (fieldNNN op).toNat = op.toNat % 4096 := by
  simp [fieldNNN, BitVec.extractLsb'_toNat]

end fields

/-! ### The decoder -/

/-- The decoder's tests, each on a number. -/
theorem decode_eq_listing (op : Word) :
    decode op =
      if op.toNat = 0x0000 then .instr .halt
      else if op.toNat = 0x00EE then .instr .ret
      else if op.toNat / 4096 = 2 then .instr (.call (fieldNNN op))
      else if op.toNat / 4096 = 8 ∧ op.toNat % 16 = 1 then .instr (.or (fieldX op) (fieldY op))
      else if op.toNat / 4096 = 8 ∧ op.toNat % 16 = 2 then .instr (.and (fieldX op) (fieldY op))
      else if op.toNat / 4096 = 8 ∧ op.toNat % 16 = 4 then .instr (.add (fieldX op) (fieldY op))
      else if op.toNat / 4096 = 8 ∧ op.toNat % 16 = 5 then .instr (.sub (fieldX op) (fieldY op))
      else .unimplemented op := by
  simp only [decode, ← BitVec.toNat_inj, fieldC_toNat, fieldD_toNat, BitVec.toNat_ofNat, Nat.reducePow, Nat.reduceMod]

/-- Settles O3: a field is determined by its number, so the operands given as numbers are the decoder's own fields. -/
theorem decodeFollowsItsListing : Obligations.DecodeFollowsItsListing := by
  intro op x y nnn c d hc hx hy hd hnnn
  have ex : x = fieldX op := Fin.ext (hx.trans (fieldX_val op).symm)
  have ey : y = fieldY op := Fin.ext (hy.trans (fieldY_val op).symm)
  have ennn : nnn = fieldNNN op := BitVec.eq_of_toNat_eq (hnnn.trans (fieldNNN_toNat op).symm)
  subst hc hd ex ey ennn
  exact decode_eq_listing op

end Sys2Proof
end

section
/-! PROOFS. 42_alu.md: OR and AND write their destination only (R89, R90), and what OR, AND, ADD and SUB answer depends on
the two operands only (R87). -/

namespace Sys2Proof

/-- Numbers whose bits do not overlap: their bitwise OR is their sum. -/
theorem or_eq_add_of_two_pow_dvd {i m n : Nat} (hm : 2 ^ i ∣ m) (hn : n < 2 ^ i) : m ||| n = m + n := by
  obtain ⟨k, rfl⟩ := hm
  exact (Nat.two_pow_add_eq_or_of_lt hn k).symm

/-- The fields of a word of format XY do not overlap, so the word is their sum (R50, R60). -/
theorem encodeXY_toNat (x y : RegIdx) {d : Word} (hd : d.toNat < 16) :
    (encodeXY x y d).toNat = 0x8000 + d.toNat + 256 * x.val + 16 * y.val := by
  have hx := x.isLt
  have hy := y.isLt
  have hxword : (BitVec.ofNat 16 x.val <<< 8).toNat = 256 * x.val := by
    rw [BitVec.toNat_shiftLeft, BitVec.toNat_ofNat, Nat.shiftLeft_eq]; omega
  have hyword : (BitVec.ofNat 16 y.val <<< 4).toNat = 16 * y.val := by
    rw [BitVec.toNat_shiftLeft, BitVec.toNat_ofNat, Nat.shiftLeft_eq]; omega
  simp only [encodeXY, BitVec.toNat_or, hxword, hyword, BitVec.toNat_ofNat, Nat.reducePow, Nat.reduceMod]
  rw [or_eq_add_of_two_pow_dvd (i := 12) (m := 0x8000) (by omega) (by omega),
    or_eq_add_of_two_pow_dvd (i := 8) (n := 16 * y.val) (by omega) (by omega),
    or_eq_add_of_two_pow_dvd (i := 4) (by omega) hd]
  omega

end Sys2Proof

namespace Sys2Proof.Machine

/-! ### The operations on equal operands -/

theorem wrappedSum_self_toNat (a : Byte) : (wrappedSum a a).toNat = 2 * a.toNat % 256 := by
  simp [wrappedSum, Nat.two_mul]

@[simp] theorem wrappedDifference_self (a : Byte) : wrappedDifference a a = 0#8 := by
  simp [wrappedDifference]

@[simp] theorem borrowFlag_self (a : Byte) : borrowFlag a a = 0#8 := by
  simp [borrowFlag]

/-! ### The ALU's two shapes of write -/

section alu

variable {s₁ s₂ : State} (s : State) (f flag : Byte → Byte → Byte) {x y : RegIdx}

/-- An operation that leaves the flag alone: its result, and everything it does not change. -/
theorem aluPlain_writes_destination_only :
    (s.aluPlain f x y).readReg x = f (s.readReg x) (s.readReg y) ∧
      (∀ j, j ≠ x → (s.aluPlain f x y).readReg j = s.readReg j) ∧
      (s.aluPlain f x y).pc = s.pc ∧ (s.aluPlain f x y).sp = s.sp ∧ (s.aluPlain f x y).stack = s.stack ∧
      (s.aluPlain f x y).status = s.status ∧ ∀ a, (s.aluPlain f x y).mem.read a = s.mem.read a := by
  refine ⟨by simp, fun j hj => ?_, aluPlain_pc .., aluPlain_sp .., aluPlain_stack .., aluPlain_status .., fun a => ?_⟩
  · rw [readReg_aluPlain, if_neg hj.symm]
  · rw [aluPlain_mem]

theorem aluPlain_destination_congr (hx : s₁.readReg x = s₂.readReg x) (hy : s₁.readReg y = s₂.readReg y) :
    (s₁.aluPlain f x y).readReg x = (s₂.aluPlain f x y).readReg x := by
  simp only [readReg_aluPlain, hx, hy]

/-- Also when the destination is the flag: then it holds the flag's value, which the operands determine as well. -/
theorem aluFlagged_destination_congr (hx : s₁.readReg x = s₂.readReg x) (hy : s₁.readReg y = s₂.readReg y) :
    (s₁.aluFlagged f flag x y).readReg x = (s₂.aluFlagged f flag x y).readReg x := by
  simp only [readReg_aluFlagged, hx, hy]

theorem aluFlagged_flag_congr (hx : s₁.readReg x = s₂.readReg x) (hy : s₁.readReg y = s₂.readReg y) :
    (s₁.aluFlagged f flag x y).readReg 15 = (s₂.aluFlagged f flag x y).readReg 15 := by
  simp only [readReg_aluFlagged, reduceIte, hx, hy]

end alu

/-! ### The obligations -/

/-- Settles O14: OR is the plain shape of write with the bitwise OR. -/
theorem orResult : Obligations.OrResult := fun x y s =>
  ⟨encodeXY_toNat x y (by decide), _, rfl, aluPlain_writes_destination_only s (· ||| ·)⟩

/-- Settles O15: AND is the plain shape of write with the bitwise AND. -/
theorem andResult : Obligations.AndResult := fun x y s =>
  ⟨encodeXY_toNat x y (by decide), _, rfl, aluPlain_writes_destination_only s (· &&& ·)⟩

/-- Settles O18: each of the four handlers is one of the two shapes of write, whose results are functions of the two
operands; of two equal operands the sum is the double, the difference is 0 and there is no borrow. -/
theorem aluResultsDependOnOperandsOnly : Obligations.AluResultsDependOnOperandsOnly := by
  refine ⟨fun x y s₁ s₂ hx hy => ⟨?_, ?_⟩, fun x s => ⟨⟨_, rfl, fun hx15 => ?_⟩, _, rfl, ?_, ?_⟩⟩
  · simp only [List.forall_mem_cons, List.not_mem_nil, false_imp_iff, implies_true, and_true]
    exact ⟨⟨_, _, rfl, rfl, aluPlain_destination_congr _ hx hy⟩,
      ⟨_, _, rfl, rfl, aluPlain_destination_congr _ hx hy⟩,
      ⟨_, _, rfl, rfl, aluFlagged_destination_congr _ _ hx hy⟩,
      ⟨_, _, rfl, rfl, aluFlagged_destination_congr _ _ hx hy⟩⟩
  · simp only [List.forall_mem_cons, List.not_mem_nil, false_imp_iff, implies_true, and_true]
    exact ⟨⟨_, _, rfl, rfl, aluFlagged_flag_congr _ _ hx hy⟩,
      ⟨_, _, rfl, rfl, aluFlagged_flag_congr _ _ hx hy⟩⟩
  · rw [readReg_aluFlagged, if_neg hx15.symm, if_pos rfl, wrappedSum_self_toNat]
  · simp only [readReg_aluFlagged, wrappedDifference_self, borrowFlag_self, reduceIte, ite_self]
  · simp only [readReg_aluFlagged, borrowFlag_self, reduceIte]

end Sys2Proof.Machine
end

section
/-! PROOFS. 30_encoding.md: the codec at bit 8 (R51, R52), decode and encode as inverses of each other (R55 to R57), the
opcode map and the illegal words (R55, R58), and the assembler (R60). -/

namespace Sys2Proof

open Machine (fetch fetch_eq_word)

/-! ### The codec as numbers -/

section codec

variable (w : Word) (h l : Byte)

@[simp] theorem decompose_fst_toNat : (decompose w).1.toNat = w.toNat / 256 := by
  simp only [decompose, BitVec.extractLsb'_toNat, Nat.shiftRight_eq_div_pow]
  omega

@[simp] theorem decompose_snd_toNat : (decompose w).2.toNat = w.toNat % 256 := by
  simp [decompose, BitVec.extractLsb'_toNat]

@[simp] theorem compose_toNat : (compose h l).toNat = h.toNat * 256 + l.toNat := by
  rw [compose, BitVec.toNat_append, Nat.shiftLeft_eq]
  exact or_eq_add_of_two_pow_dvd (i := 8) (Nat.dvd_mul_left ..) l.isLt

theorem compose_toNat_eq_shift_or : (compose h l).toNat = h.toNat <<< 8 ||| l.toNat := BitVec.toNat_append h l

@[simp] theorem compose_decompose : compose (decompose w).1 (decompose w).2 = w :=
  BitVec.eq_of_toNat_eq (by simp only [compose_toNat, decompose_fst_toNat, decompose_snd_toNat]; omega)

@[simp] theorem decompose_compose : decompose (compose h l) = (h, l) := by
  have hl := l.isLt
  have hfst : (decompose (compose h l)).1 = h :=
    BitVec.eq_of_toNat_eq (by rw [decompose_fst_toNat, compose_toNat]; omega)
  have hsnd : (decompose (compose h l)).2 = l :=
    BitVec.eq_of_toNat_eq (by rw [decompose_snd_toNat, compose_toNat]; omega)
  exact Prod.ext hfst hsnd

end codec

/-- Settles O2: bit 8 of a word is the bound between its quotient and its remainder by 256. -/
theorem codecRoundTrip : Obligations.CodecRoundTrip := by
  refine ⟨fun w => ⟨?_, ?_, compose_decompose w⟩,
    fun h l => ⟨compose_toNat_eq_shift_or h l, decompose_compose h l⟩, fun s s' op hf => ?_⟩
  · rw [decompose_fst_toNat, Nat.shiftRight_eq_div_pow]
  · rw [decompose_snd_toNat]; exact (Nat.and_two_pow_sub_one_eq_mod w.toNat 8).symm
  · exact (fetch_eq_word hf).2.2

/-! ### Decode inverts encode -/

theorem encode_call_toNat (nnn : Addr12) : (encode (.call nnn)).toNat = 0x2000 + nnn.toNat := by
  have hn := nnn.isLt
  have hword : (nnn.setWidth 16).toNat = nnn.toNat := by rw [BitVec.toNat_setWidth]; omega
  rw [encode, BitVec.toNat_or, hword]
  exact or_eq_add_of_two_pow_dvd (i := 12) (by decide) hn

theorem decode_encode_call (nnn : Addr12) : decode (encode (.call nnn)) = .instr (.call nnn) := by
  have hn := nnn.isLt
  have hw := encode_call_toNat nnn
  have hfield : fieldNNN (encode (.call nnn)) = nnn :=
    BitVec.eq_of_toNat_eq (by rw [fieldNNN_toNat, hw]; omega)
  rw [decode_eq_listing, if_neg (by omega), if_neg (by omega), if_pos (by omega), hfield]

/-- The decoder on a word of format XY is a choice by the last nibble (R55, R57). -/
theorem decode_encodeXY (x y : RegIdx) {d : Word} (hd : d.toNat < 16) :
    decode (encodeXY x y d) =
      if d.toNat = 1 then .instr (.or x y)
      else if d.toNat = 2 then .instr (.and x y)
      else if d.toNat = 4 then .instr (.add x y)
      else if d.toNat = 5 then .instr (.sub x y)
      else .unimplemented (encodeXY x y d) := by
  have hx := x.isLt
  have hy := y.isLt
  have hw := encodeXY_toNat x y hd
  have hfx : fieldX (encodeXY x y d) = x := Fin.ext (by rw [fieldX_val, hw]; omega)
  have hfy : fieldY (encodeXY x y d) = y := Fin.ext (by rw [fieldY_val, hw]; omega)
  have hc : (encodeXY x y d).toNat / 4096 = 8 := by omega
  have hlow : (encodeXY x y d).toNat % 16 = d.toNat := by omega
  rw [decode_eq_listing, if_neg (by omega), if_neg (by omega), if_neg (by omega), hc, hlow, hfx, hfy]
  simp only [true_and]

theorem decode_encode (i : Instr) : decode (encode i) = .instr i := by
  cases i with
  | halt => rfl
  | ret => rfl
  | call nnn => exact decode_encode_call nnn
  | or x y => exact decode_encodeXY x y (by decide)
  | and x y => exact decode_encodeXY x y (by decide)
  | add x y => exact decode_encodeXY x y (by decide)
  | sub x y => exact decode_encodeXY x y (by decide)

/-- A word with 8 on top is the XY word of its own fields. -/
theorem encodeXY_fields {w d : Word} (hc : w.toNat / 4096 = 8) (hd : w.toNat % 16 = d.toNat) :
    encodeXY (fieldX w) (fieldY w) d = w :=
  BitVec.eq_of_toNat_eq (by rw [encodeXY_toNat _ _ (by omega), fieldX_val, fieldY_val]; omega)

theorem encode_of_decode {w : Word} {i : Instr} (h : decode w = .instr i) : encode i = w := by
  rw [decode_eq_listing] at h
  split_ifs at h with hhalt hret hcall hor hand hadd hsub <;> cases h
  · exact BitVec.eq_of_toNat_eq hhalt.symm
  · exact BitVec.eq_of_toNat_eq hret.symm
  · exact BitVec.eq_of_toNat_eq (by rw [encode_call_toNat, fieldNNN_toNat]; omega)
  · exact encodeXY_fields hor.1 hor.2
  · exact encodeXY_fields hand.1 hand.2
  · exact encodeXY_fields hadd.1 hadd.2
  · exact encodeXY_fields hsub.1 hsub.2

theorem decode_eq_instr_iff {w : Word} {i : Instr} : decode w = .instr i ↔ encode i = w :=
  ⟨encode_of_decode, fun h => h ▸ decode_encode i⟩

/-- Settles O4: the fields of a word do not overlap, so each word of an instruction gives its operands back. -/
theorem decodeInvertsEncode : Obligations.DecodeInvertsEncode :=
  ⟨fun _ _ => decode_eq_instr_iff, fun i rest => by simp [encodeBytes, decodeBytes, decode_encode]⟩

/-- Settles O1: the decoder runs on each of the twelve words. -/
theorem listedWordsDecode : Obligations.ListedWordsDecode := by
  unfold Obligations.ListedWordsDecode
  decide

/-! ### The opcode map -/

/-- The mask of CALL keeps the first nibble. -/
theorem and_0xF000_toNat (w : Word) : (w &&& 0xF000#16).toNat = 4096 * (w.toNat / 4096) := by
  have hbits : w &&& 0xF000#16 = (w >>> 12) <<< 12 := by
    ext i hi
    simp only [BitVec.getElem_and, BitVec.getElem_shiftLeft]
    interval_cases i <;> simp
  rw [hbits, BitVec.toNat_shiftLeft, BitVec.toNat_ushiftRight, Nat.shiftLeft_eq, Nat.shiftRight_eq_div_pow]
  omega

/-- The mask of format XY keeps the first and the last nibble. -/
theorem and_0xF00F_toNat (w : Word) : (w &&& 0xF00F#16).toNat = 4096 * (w.toNat / 4096) + w.toNat % 16 := by
  have hmask : 0xF00F#16 = 0xF000#16 ||| 0x000F#16 := by decide
  have hlow : (w &&& 0x000F#16).toNat = w.toNat % 16 := Nat.and_two_pow_sub_one_eq_mod w.toNat 4
  rw [hmask, BitVec.and_or_distrib_left, BitVec.toNat_or, and_0xF000_toNat, hlow]
  exact or_eq_add_of_two_pow_dvd (i := 12) (Nat.dvd_mul_right ..) (by omega)

section accepts

variable (m : String) (w : Word) {p : Word}

theorem accepts_fullMask : OpcodeRow.accepts ⟨m, p, 0xFFFF#16⟩ w = decide (w.toNat = p.toNat) := by
  have hmask : w &&& 0xFFFF#16 = w := BitVec.and_allOnes
  simp only [OpcodeRow.accepts, hmask, Bool.beq_eq_decide_eq, BitVec.toNat_inj]

theorem accepts_maskC (hp : p.toNat % 4096 = 0) :
    OpcodeRow.accepts ⟨m, p, 0xF000#16⟩ w = decide (w.toNat / 4096 = p.toNat / 4096) := by
  simp only [OpcodeRow.accepts, Bool.beq_eq_decide_eq, ← BitVec.toNat_inj, and_0xF000_toNat]
  exact decide_eq_decide.2 (by omega)

theorem accepts_maskCD (hp : p.toNat / 16 % 256 = 0) :
    OpcodeRow.accepts ⟨m, p, 0xF00F#16⟩ w =
      decide (w.toNat / 4096 = p.toNat / 4096 ∧ w.toNat % 16 = p.toNat % 16) := by
  simp only [OpcodeRow.accepts, Bool.beq_eq_decide_eq, ← BitVec.toNat_inj, and_0xF00F_toNat]
  exact decide_eq_decide.2 (by omega)

end accepts

/-- Settles O5: each row's mask and pattern test the numbers that the decoder's listing tests, and no two of those tests
hold of one word. -/
theorem opcodeRowsAreDisjointAndDecide : Obligations.OpcodeRowsAreDisjointAndDecide := by
  intro w
  rw [decode_eq_listing]
  split_ifs <;> simp [opcodeTable, accepts_fullMask, accepts_maskC, accepts_maskCD, Instr.mnemonic, *]

/-- Settles O6: the listing's last branch, read as a condition on the nibbles. -/
theorem illegalWordsAreTheListedSets : Obligations.IllegalWordsAreTheListedSets := by
  intro w
  have hw := w.isLt
  simp only [List.mem_cons, List.not_mem_nil, or_false]
  rw [decode_eq_listing]
  split_ifs <;> simp only [false_iff, true_iff] <;> omega

/-! ### The assembler -/

theorem isSome_assembleXY (mk : RegIdx → RegIdx → Instr) (x y : Nat) :
    (assembleXY mk x y).isSome = (regOperandOk x && regOperandOk y) := by
  unfold assembleXY
  split <;> simp_all [regOperandOk]

theorem assembleXY_val (mk : RegIdx → RegIdx → Instr) (x y : RegIdx) :
    assembleXY mk x.val y.val = some (encode (mk x y)) := dif_pos ⟨x.isLt, y.isLt⟩

theorem isSome_assemble (l : AsmLine) : (assemble l).isSome = l.wellFormed := by
  cases l with
  | halt => rfl
  | ret => rfl
  | call a => exact Bool.eq_iff_iff.2 (by simp [assemble, AsmLine.wellFormed, callOperandOk])
  | or x y => exact isSome_assembleXY ..
  | and x y => exact isSome_assembleXY ..
  | add x y => exact isSome_assembleXY ..
  | sub x y => exact isSome_assembleXY ..
  | word w => exact Bool.eq_iff_iff.2 (by simp [assemble, AsmLine.wellFormed, wordOperandOk])

/-- The assembler gives an instruction's line the instruction's own word. -/
theorem assemble_toAsm (i : Instr) : assemble i.toAsm = some (encode i) := by
  cases i with
  | halt => rfl
  | ret => rfl
  | call nnn =>
    have hword : BitVec.ofNat 16 nnn.toNat = nnn.setWidth 16 := BitVec.ofNat_toNat ..
    exact (if_pos nnn.isLt).trans (by rw [hword, encode])
  | or x y => exact assembleXY_val .or x y
  | and x y => exact assembleXY_val .and x y
  | add x y => exact assembleXY_val .add x y
  | sub x y => exact assembleXY_val .sub x y

theorem assemble_word_toNat {n : Nat} {w : Word} (h : assemble (.word n) = some w) : w.toNat = n := by
  simp only [assemble, Option.ite_none_right_eq_some, Option.some.injEq] at h
  obtain ⟨hlt, rfl⟩ := h
  exact Nat.mod_eq_of_lt hlt

/-- Settles O7: the assembler's tests are the operand checks, and its word for an instruction's line is `encode`'s. -/
theorem assemblerAcceptsExactlyOperandsInRange : Obligations.AssemblerAcceptsExactlyOperandsInRange :=
  ⟨fun l => by rw [isSome_assemble], fun i => ⟨encode i, assemble_toAsm i, decode_encode i⟩,
    fun _ _ => assemble_word_toNat⟩

end Sys2Proof
end

section
/-! PROOFS. 20_memory.md: canonical memories (entry 2), a word stored and fetched big-endian (R37 to R40), and the step
after each outcome of the fetch (40_engine.md R63, 60_exceptions.md R98, R99, R102). -/

namespace Sys2Proof.Machine

/-! ### The memory -/

theorem Memory.nodup_of_wf {m : Memory} (h : m.wf) : m.Nodup :=
  h.1.imp fun hlt => ne_of_apply_ne Prod.fst (Nat.ne_of_lt hlt)

/-- Settles O9: canonical memories that read alike list the same cells, and rising addresses leave them one order. -/
theorem canonicalMemoriesThatReadAlikeAreEqual : Obligations.CanonicalMemoriesThatReadAlikeAreEqual := by
  intro m₁ m₂ h₁ h₂ hread
  have hmem : ∀ c, c ∈ m₁ ↔ c ∈ m₂ := fun ⟨a, b⟩ => by
    rw [← Memory.read_eq_some_iff h₁.1, ← Memory.read_eq_some_iff h₂.1, hread]
  have hperm : m₁.Perm m₂ :=
    (List.perm_ext_iff_of_nodup (Memory.nodup_of_wf h₁) (Memory.nodup_of_wf h₂)).2 hmem
  exact hperm.eq_of_pairwise (fun _ _ _ _ hlt hgt => absurd hlt (Nat.lt_asymm hgt)) h₁.1 h₂.1

/-- A word stored where both addresses exist: its two bytes lie there, and every other address reads as before. -/
theorem Memory.writeWord_of_le (m : Memory) {a : Nat} (w : Word) (ha : a ≤ 4094) :
    ∃ m', m.writeWord a w = some m' ∧ m'.read a = some (decompose w).1 ∧ m'.read (a + 1) = some (decompose w).2 ∧
      ∀ c, c ≠ a → c ≠ a + 1 → m'.read c = m.read c := by
  have hlt : a + 1 < Config.memSize := by simp only [Config.memSize]; omega
  refine ⟨_, dif_pos hlt, ?_, ?_, fun c hc hc' => ?_⟩
  · rw [Memory.read_write, if_neg (Nat.ne_of_lt a.lt_succ_self), Memory.read_write, if_pos rfl]
  · rw [Memory.read_write, if_pos rfl]
  · rw [Memory.read_write, if_neg hc', Memory.read_write, if_neg hc]

/-! ### The fetch -/

theorem fetch_of_read {s : State} {h l : Byte} (hpc : s.pc.toNat ≤ 4094) (hh : s.mem.read s.pc.toNat = some h)
    (hl : s.mem.read (s.pc.toNat + 1) = some l) : fetch s = .word (compose h l) { s with pc := s.pc + 2#16 } := by
  have hin : ¬ s.pc.toNat + 1 > Config.memSize - 1 := by simp only [Config.memSize]; omega
  simp only [fetch, if_neg hin, hh, hl]

/-- The fetch reads the two bytes of a stored word back as that word. -/
theorem fetch_of_read_decompose {s : State} {w : Word} (hpc : s.pc.toNat ≤ 4094)
    (hh : s.mem.read s.pc.toNat = some (decompose w).1) (hl : s.mem.read (s.pc.toNat + 1) = some (decompose w).2) :
    fetch s = .word w { s with pc := s.pc + 2#16 } := by
  rw [fetch_of_read hpc hh hl, compose_decompose]

theorem decompose_eq_ofNat (w : Word) :
    decompose w = (BitVec.ofNat 8 (w.toNat >>> 8), BitVec.ofNat 8 (w.toNat &&& 0xFF)) := by
  have hlow : w.toNat &&& 0xFF = w.toNat % 256 := Nat.and_two_pow_sub_one_eq_mod w.toNat 8
  have hfst : (decompose w).1 = BitVec.ofNat 8 (w.toNat >>> 8) := BitVec.eq_of_toNat_eq (by
    rw [decompose_fst_toNat, BitVec.toNat_ofNat, Nat.shiftRight_eq_div_pow]; omega)
  have hsnd : (decompose w).2 = BitVec.ofNat 8 (w.toNat &&& 0xFF) := BitVec.eq_of_toNat_eq (by
    rw [decompose_snd_toNat, BitVec.toNat_ofNat, hlow]; omega)
  exact Prod.ext hfst hsnd

/-- Settles O8: the loader stores the two halves of `decompose`, which the fetch composes again; no step writes memory. -/
theorem storedWordIsFetchedBigEndian : Obligations.StoredWordIsFetchedBigEndian := by
  refine ⟨fun m a w ha => ?_, fun s s' op hf => ?_, fun p s t => stepWith_mem⟩
  · obtain ⟨m', hm', hhigh, hlow, hrest⟩ := m.writeWord_of_le w ha
    have hbytes := decompose_eq_ofNat w
    refine ⟨m', hm', by rw [hhigh, hbytes], by rw [hlow, hbytes], hrest, ?_⟩
    rintro s rfl rfl
    exact fetch_of_read_decompose ha hhigh hlow
  · obtain ⟨-, -, h, l, hh, hl, rfl⟩ := fetch_eq_word hf
    exact ⟨h, l, hh, hl, compose_toNat_eq_shift_or h l⟩

/-! ### The step after each outcome of the fetch -/

section step

variable (p : UnimplPolicy) {s s' : State} {op : Word}

theorem stepWith_of_ne_running (h : s.status ≠ .running) : stepWith p s = .next s := by
  unfold stepWith
  split
  · rfl
  · rfl
  · next hr => exact absurd hr h

theorem stepWith_of_outOfBounds (hr : s.status = .running) (hf : fetch s = .outOfBounds) :
    stepWith p s = .next (s.raise .outOfBoundsMemoryAccess s.pc none) := by
  simp only [stepWith, hr, hf, raiseFetchFault]

theorem stepWith_of_instr {i : Instr} (hr : s.status = .running) (hf : fetch s = .word op s')
    (hd : decode op = .instr i) : stepWith p s = exec i s' := by
  simp only [stepWith, hr, hf, hd]

theorem stepWith_of_unimplemented {bad : Word} (hr : s.status = .running) (hf : fetch s = .word op s')
    (hd : decode op = .unimplemented bad) : stepWith p s = execUnimplemented p bad s' := by
  simp only [stepWith, hr, hf, hd]

end step

/-- Settles O10: beyond 4094 the fetch is out of bounds, and the step raises that and does nothing else. -/
theorem fetchPastEndRaisesOutOfBounds : Obligations.FetchPastEndRaisesOutOfBounds := fun p _ hr hpc =>
  stepWith_of_outOfBounds p hr (fetch_eq_outOfBounds.2 hpc)

/-- Settles O20: the fetch composes the two bytes, and the step dispatches on what the word decodes to. -/
theorem stepRunsTheDecodedInstruction : Obligations.StepRunsTheDecodedInstruction :=
  ⟨fun p _ _ _ _ hr hpc hh hl hd => stepWith_of_instr p hr (fetch_of_read hpc hh hl) hd, fun _ => rfl⟩

theorem decode_of_decodeTableWord {n w : Nat} {i : Instr} (h : decodeTableWord n w = some i) :
    decode (tableWord n w) = .instr i := by
  simp only [decodeTableWord, decodeBytes, compose_decompose] at h
  cases hd : decode (tableWord n w) with
  | instr j => rw [hd] at h; rw [Option.some.inj h]
  | unimplemented op => rw [hd] at h; cases h

theorem withFetchWord_of_writeWord {s : State} {n w : Nat} {m : Memory}
    (h : s.mem.writeWord s.pc.toNat (tableWord n w) = some m) : s.withFetchWord n w = { s with mem := m } := by
  simp only [State.withFetchWord, h]

/-- Settles O21: the next fetch reads the placed word back, and the decoder finds the table's instruction in it. -/
theorem placedWordIsTheNextInstruction : Obligations.PlacedWordIsTheNextInstruction := by
  intro s w i hr hpc hw
  obtain ⟨m, hm, hhigh, hlow, -⟩ := s.mem.writeWord_of_le (tableWord 16 w) hpc
  rw [withFetchWord_of_writeWord hm]
  exact stepWith_of_instr _ hr (fetch_of_read_decompose hpc hhigh hlow) (decode_of_decodeTableWord hw)

/-- A fatal condition raised after the fetch names the address fetched. -/
theorem raiseHere_fetched (s : State) (kind : FatalKind) (op : Word) :
    ({ s with pc := s.pc + 2#16 } : State).raiseHere kind op =
      { s with pc := s.pc + 2#16, status := .faulted kind s.pc (some op) } := by
  rw [State.raiseHere, instrAddr_fetched, State.raise]

/-- An illegal word, as its fetch found it: the fault names the address fetched. -/
theorem execUnimplemented_fetched (s : State) (op : Word) :
    execUnimplemented .fatal op { s with pc := s.pc + 2#16 } =
      .next { s with pc := s.pc + 2#16, status := .faulted .unimplementedOpcode s.pc (some op) } := by
  rw [execUnimplemented, raiseHere_fetched]

/-- Settles O22: the decoder hands the word itself to the policy. -/
theorem illegalWordFaultsOrIsSkipped : Obligations.IllegalWordFaultsOrIsSkipped := by
  intro s h l hr hpc hh hl hd
  have hf := fetch_of_read hpc hh hl
  exact ⟨(stepWith_of_unimplemented .fatal hr hf hd).trans (execUnimplemented_fetched s _),
    stepWith_of_unimplemented .skip hr hf hd⟩

end Sys2Proof.Machine
end

section
/-! PROOFS. What each handler does (40_engine.md R71, 41_control_flow.md R81 to R83, 42_alu.md R89 to R92): that it answers,
its results, and what of the registers, the stack and the status it leaves alone. -/

namespace Sys2Proof.Machine

/-! ### CALL and RET by the room on the stack -/

section stack

variable {s s' : State}

theorem exists_push (a : Addr) (h : s.sp.val < 16) : ∃ s', s.push a = some s' :=
  Option.ne_none_iff_exists'.1 fun hnone => Nat.ne_of_lt h (push_eq_none.1 hnone)

theorem exists_pop (h : 0 < s.sp.val) : ∃ a s', s.pop = some (a, s') := by
  obtain ⟨⟨a, s'⟩, hpop⟩ := Option.ne_none_iff_exists'.1 fun hnone => Nat.ne_of_gt h (pop_eq_none.1 hnone)
  exact ⟨a, s', hpop⟩

theorem execCall_of_push {nnn : Addr12} (h : s.push s.pc = some s') :
    execCall nnn s = .next { s' with pc := callTarget nnn } := by
  simp only [execCall, h]

theorem execCall_of_full (nnn : Addr12) (h : s.sp.val = 16) :
    execCall nnn s = .next (s.raiseHere .stackOverflow (encode (.call nnn))) := by
  simp only [execCall, push_eq_none.2 h]

theorem execRet_of_pop {a : Addr} (h : s.pop = some (a, s')) : execRet s = .next { s' with pc := a } := by
  simp only [execRet, h]

theorem execRet_of_empty (h : s.sp.val = 0) : execRet s = .next (s.raiseHere .stackUnderflow (encode .ret)) := by
  simp only [execRet, pop_eq_none.2 h]

@[simp] theorem callTarget_toNat (nnn : Addr12) : (callTarget nnn).toNat = nnn.toNat := by
  have hn := nnn.isLt
  rw [callTarget, BitVec.toNat_setWidth]
  omega

theorem callTarget_toNat_le (nnn : Addr12) : (callTarget nnn).toNat ≤ 4096 := by
  rw [callTarget_toNat]
  exact Nat.le_of_lt nnn.isLt

end stack

/-- Settles O11: HALT's next state is a status update. -/
theorem haltHaltsAndKeepsTheRest : Obligations.HaltHaltsAndKeepsTheRest :=
  ⟨rfl, fun _ => ⟨_, rfl, rfl, rfl, rfl, rfl, rfl, fun _ => rfl⟩⟩

/-- Settles O12: the push of the advanced `pc` has room, and CALL sets `pc` after it. -/
theorem callWithRoomPushesAndJumps : Obligations.CallWithRoomPushesAndJumps := by
  intro nnn s hroom
  obtain ⟨s', hpush⟩ := exists_push s.pc hroom
  obtain ⟨-, hsp, hslots, hmem, hv, -, hstatus⟩ := push_eq_some hpush
  exact ⟨_, execCall_of_push hpush, hsp, callTarget_toNat nnn, hslots, hv, hstatus, fun a => congrArg (·.read a) hmem⟩

/-- Settles O13: the pop finds an entry, and RET sets `pc` to it. -/
theorem retWithEntryPopsIntoPc : Obligations.RetWithEntryPopsIntoPc := by
  intro s k hk
  obtain ⟨a, s', hpop⟩ := exists_pop (s := s) (by omega)
  obtain ⟨-, hsp, htop, hstack, hmem, hv, -, hstatus⟩ := pop_eq_some hpop
  exact ⟨_, execRet_of_pop hpop, by simp only [hsp]; omega, htop k hk, hstack, hv, hstatus,
    fun a => congrArg (·.read a) hmem⟩

/-! ### The ALU -/

theorem wrappedDifference_toNat (a b : Byte) :
    ((wrappedDifference a b).toNat : Int) = ((a.toNat : Int) - b.toNat) % 256 := by
  have ha := a.isLt
  have hb := b.isLt
  rw [wrappedDifference, BitVec.toNat_ofNat]
  omega

theorem carryFlag_toNat (a b : Byte) : (carryFlag a b).toNat = if a.toNat + b.toNat > 255 then 1 else 0 := by
  rw [carryFlag]
  split <;> rfl

theorem borrowFlag_toNat (a b : Byte) : (borrowFlag a b).toNat = if a.toNat < b.toNat then 1 else 0 := by
  rw [borrowFlag]
  split <;> rfl

/-- ADD's result and carry together are the exact sum. -/
theorem wrappedSum_add_carryFlag (a b : Byte) :
    (wrappedSum a b).toNat + 256 * (carryFlag a b).toNat = a.toNat + b.toNat := by
  have ha := a.isLt
  have hb := b.isLt
  rw [wrappedSum, BitVec.toNat_ofNat, carryFlag_toNat]
  split <;> omega

/-- SUB's result and borrow together are the exact difference. -/
theorem wrappedDifference_sub_borrowFlag (a b : Byte) :
    ((wrappedDifference a b).toNat : Int) - 256 * (borrowFlag a b).toNat = (a.toNat : Int) - b.toNat := by
  have ha := a.isLt
  have hb := b.isLt
  rw [wrappedDifference_toNat, borrowFlag_toNat]
  split <;> omega

theorem wrappedSum_comm (a b : Byte) : wrappedSum a b = wrappedSum b a := by
  rw [wrappedSum, wrappedSum, Nat.add_comm]

section alu

variable (s : State) (f flag : Byte → Byte → Byte) {x : RegIdx} (y : RegIdx)

theorem readReg_aluFlagged_destination (hx : x ≠ 15) :
    (s.aluFlagged f flag x y).readReg x = f (s.readReg x) (s.readReg y) := by
  rw [readReg_aluFlagged, if_neg hx.symm, if_pos rfl]

theorem readReg_aluFlagged_flag (x : RegIdx) :
    (s.aluFlagged f flag x y).readReg 15 = flag (s.readReg x) (s.readReg y) := by
  rw [readReg_aluFlagged, if_pos rfl]

theorem readReg_aluFlagged_of_ne {j : RegIdx} (hx : j ≠ x) (h15 : j ≠ 15) :
    (s.aluFlagged f flag x y).readReg j = s.readReg j := by
  rw [readReg_aluFlagged, if_neg h15.symm, if_neg hx.symm]

/-- An operation with a flag: all that it leaves alone. -/
theorem aluFlagged_frame (x : RegIdx) :
    (∀ j, j ≠ x → j ≠ 15 → (s.aluFlagged f flag x y).readReg j = s.readReg j) ∧
      (s.aluFlagged f flag x y).pc = s.pc ∧ (s.aluFlagged f flag x y).sp = s.sp ∧
      (s.aluFlagged f flag x y).stack = s.stack ∧ (s.aluFlagged f flag x y).status = s.status ∧
      ∀ a, (s.aluFlagged f flag x y).mem.read a = s.mem.read a :=
  ⟨fun _ => readReg_aluFlagged_of_ne s f flag y, aluFlagged_pc .., aluFlagged_sp .., aluFlagged_stack ..,
    aluFlagged_status .., fun a => by rw [aluFlagged_mem]⟩

theorem readReg_aluPlain_of_ne {j : RegIdx} (hj : j ≠ x) : (s.aluPlain f x y).readReg j = s.readReg j := by
  rw [readReg_aluPlain, if_neg hj.symm]

/-- Exchanging the operands of a commutative operation gives the other destination the same value. -/
theorem readReg_aluPlain_comm (hf : ∀ a b, f a b = f b a) (x : RegIdx) :
    (s.aluPlain f x y).readReg x = (s.aluPlain f y x).readReg y := by
  rw [readReg_aluPlain, readReg_aluPlain, if_pos rfl, if_pos rfl, hf]

theorem readReg_aluFlagged_comm (hf : ∀ a b, f a b = f b a) (hx : x ≠ 15) {y : RegIdx} (hy : y ≠ 15) :
    (s.aluFlagged f flag x y).readReg x = (s.aluFlagged f flag y x).readReg y := by
  rw [readReg_aluFlagged_destination s f flag y hx, readReg_aluFlagged_destination s f flag x hy, hf]

end alu

/-- Settles O16: ADD is the flagged shape of write with the sum and the carry. -/
theorem addResultAndCarry : Obligations.AddResultAndCarry := fun x y s =>
  ⟨encodeXY_toNat x y (by decide), _, rfl,
    fun hx => by rw [readReg_aluFlagged_destination s _ _ y hx, wrappedSum, BitVec.toNat_ofNat],
    readReg_aluFlagged_flag .., aluFlagged_frame s _ _ y x⟩

/-- Settles O17: SUB is the flagged shape of write with the difference and the borrow. -/
theorem subResultAndBorrow : Obligations.SubResultAndBorrow := fun x y s =>
  ⟨encodeXY_toNat x y (by decide), _, rfl,
    fun hx => by rw [readReg_aluFlagged_destination s _ _ y hx, wrappedDifference_toNat],
    readReg_aluFlagged_flag .., aluFlagged_frame s _ _ y x⟩

/-- Settles O19: the flag is the ninth bit of the sum or the sign of the difference, and the operations commute. -/
theorem resultAndFlagAreExact : Obligations.ResultAndFlagAreExact := by
  refine fun x y s hx => ⟨⟨_, rfl, ?_⟩, ⟨_, rfl, ?_⟩, fun hy => ?_⟩
  · rw [readReg_aluFlagged_destination s _ _ y hx, readReg_aluFlagged_flag, wrappedSum_add_carryFlag]
  · rw [readReg_aluFlagged_destination s _ _ y hx, readReg_aluFlagged_flag, wrappedDifference_sub_borrowFlag]
  · simp only [List.forall_mem_cons, List.not_mem_nil, false_imp_iff, implies_true, and_true]
    exact ⟨⟨_, _, rfl, rfl, readReg_aluFlagged_comm s _ _ wrappedSum_comm hx hy⟩,
      ⟨_, _, rfl, rfl, readReg_aluPlain_comm s _ y BitVec.or_comm x⟩,
      ⟨_, _, rfl, rfl, readReg_aluPlain_comm s _ y BitVec.and_comm x⟩⟩

/-! ### All handlers -/

/-- What a handler leaves, one constructor per way it can end: ALU instructions write registers only, HALT the status;
CALL and RET move the stack and `pc`, or raise their fatal condition. -/
inductive Effect (s : State) : Instr → State → Prop where
  | halt : Effect s .halt { s with status := .halted }
  | ret {a : Addr} {s' : State} (hpop : s.pop = some (a, s')) : Effect s .ret { s' with pc := a }
  | retEmpty (hempty : s.sp.val = 0) : Effect s .ret (s.raiseHere .stackUnderflow (encode .ret))
  | call {nnn : Addr12} {s' : State} (hpush : s.push s.pc = some s') :
      Effect s (.call nnn) { s' with pc := callTarget nnn }
  | callFull {nnn : Addr12} (hfull : s.sp.val = 16) :
      Effect s (.call nnn) (s.raiseHere .stackOverflow (encode (.call nnn)))
  | or (x y : RegIdx) : Effect s (.or x y) (s.aluPlain (· ||| ·) x y)
  | and (x y : RegIdx) : Effect s (.and x y) (s.aluPlain (· &&& ·) x y)
  | add (x y : RegIdx) : Effect s (.add x y) (s.aluFlagged wrappedSum carryFlag x y)
  | sub (x y : RegIdx) : Effect s (.sub x y) (s.aluFlagged wrappedDifference borrowFlag x y)

/-- Every handler answers a next state, by one of the ways listed. -/
theorem exec_effect (i : Instr) (s : State) : ∃ t, exec i s = .next t ∧ Effect s i t := by
  cases i with
  | halt => exact ⟨_, rfl, .halt⟩
  | ret =>
    obtain ⟨a, s', hpop, e⟩ | ⟨hnone, e⟩ := execRet_cases s
    · exact ⟨_, e, .ret hpop⟩
    · exact ⟨_, e, .retEmpty (pop_eq_none.1 hnone)⟩
  | call nnn =>
    obtain ⟨s', hpush, e⟩ | ⟨hnone, e⟩ := execCall_cases nnn s
    · exact ⟨_, e, .call hpush⟩
    · exact ⟨_, e, .callFull (push_eq_none.1 hnone)⟩
  | or x y => exact ⟨_, rfl, .or x y⟩
  | and x y => exact ⟨_, rfl, .and x y⟩
  | add x y => exact ⟨_, rfl, .add x y⟩
  | sub x y => exact ⟨_, rfl, .sub x y⟩

theorem effect_of_exec {i : Instr} {s t : State} (h : exec i s = .next t) : Effect s i t := by
  obtain ⟨u, hu, he⟩ := exec_effect i s
  cases hu.symm.trans h
  exact he

/-- Settles O30: every way a handler ends is a next state. -/
theorem everyHandlerAnswersANextState : Obligations.EveryHandlerAnswersANextState := fun i s =>
  (exec_effect i s).imp fun _ h => h.1

/-- Settles O32: only the ALU's two shapes of write reach the register file. -/
theorem registersEachInstructionMayWrite : Obligations.RegistersEachInstructionMayWrite := by
  intro i s t j h hj
  cases effect_of_exec h with
  | halt => exact hj rfl
  | ret hpop =>
    obtain ⟨-, -, -, -, -, hv, -⟩ := pop_eq_some hpop
    exact hj (readReg_congr hv j)
  | retEmpty => exact hj (raiseHere_readReg ..)
  | call hpush =>
    obtain ⟨-, -, -, -, hv, -⟩ := push_eq_some hpush
    exact hj (readReg_congr hv j)
  | callFull => exact hj (raiseHere_readReg ..)
  | or x y | and x y => exact by_contra fun hne => hj (readReg_aluPlain_of_ne s _ y hne)
  | add x y | sub x y =>
    refine by_contra fun hne => ?_
    obtain ⟨hx, h15⟩ := not_or.1 hne
    exact hj (readReg_aluFlagged_of_ne s _ _ y hx h15)

/-- Settles O33: a push writes one slot and moves `sp`, a pop moves `sp`, and only HALT and the two fatal conditions of the
stack set the status. -/
theorem stackAndStatusEachInstructionMayWrite : Obligations.StackAndStatusEachInstructionMayWrite := by
  intro i s t h
  cases effect_of_exec h with
  | halt => exact ⟨fun h => absurd rfl h, fun _ h => absurd rfl h, fun _ => .inr (.inr rfl)⟩
  | ret hpop =>
    obtain ⟨-, -, -, hstack, -, -, -, hstatus⟩ := pop_eq_some hpop
    exact ⟨fun _ => .inr rfl, fun k h => absurd (readStack_congr hstack k) h, fun h => absurd hstatus h⟩
  | retEmpty => exact ⟨fun h => absurd rfl h, fun _ h => absurd rfl h, fun _ => .inr (.inl rfl)⟩
  | call hpush =>
    obtain ⟨-, -, hslots, -, -, -, hstatus⟩ := push_eq_some hpush
    refine ⟨fun _ => .inl rfl, fun k h => ⟨rfl, ?_⟩, fun h => absurd hstatus h⟩
    by_contra hne
    exact h ((hslots k).trans (if_neg hne))
  | callFull => exact ⟨fun h => absurd rfl h, fun _ h => absurd rfl h, fun _ => .inl rfl⟩
  | or | and | add | sub => exact ⟨fun h => absurd rfl h, fun _ h => absurd rfl h, fun h => absurd rfl h⟩

/-! ### Nesting -/

/-- A handler other than RET's and HALT's, with room for the push if it is a CALL's, goes on and counts the CALL. -/
theorem exec_counts_calls {i : Instr} {s : State} (hret : i ≠ .ret) (hhalt : i ≠ .halt)
    (hroom : s.sp.val + (if i.isCall = true then 1 else 0) ≤ 16) :
    ∃ t, exec i s = .next t ∧ t.sp.val = s.sp.val + (if i.isCall = true then 1 else 0) ∧ t.status = s.status := by
  obtain ⟨t, ht, he⟩ := exec_effect i s
  refine ⟨t, ht, ?_⟩
  cases he with
  | halt => exact absurd rfl hhalt
  | ret | retEmpty => exact absurd rfl hret
  | call hpush =>
    obtain ⟨-, hsp, -, -, -, -, hstatus⟩ := push_eq_some hpush
    exact ⟨hsp, hstatus⟩
  | callFull hfull => simp [hfull, Instr.isCall] at hroom
  | or | and | add | sub => exact ⟨rfl, rfl⟩

theorem execList_cons {i : Instr} {is : List Instr} {s t : State} (h : exec i s = .next t) :
    execList (i :: is) s = execList is t := by
  simp only [execList, h]

/-- A list of such handlers whose CALLs fit on the stack runs through. -/
theorem execList_counts_calls {is : List Instr} {s : State} (hret : .ret ∉ is) (hhalt : .halt ∉ is)
    (hroom : s.sp.val + is.countP (·.isCall) ≤ 16) :
    ∃ t, execList is s = .next t ∧ t.sp.val = s.sp.val + is.countP (·.isCall) ∧ t.status = s.status := by
  induction is generalizing s with
  | nil => exact ⟨s, rfl, rfl, rfl⟩
  | cons i is ih =>
    rw [List.mem_cons, not_or] at hret hhalt
    rw [List.countP_cons] at hroom ⊢
    obtain ⟨u, hu, husp, hustatus⟩ := exec_counts_calls (s := s) (Ne.symm hret.1) (Ne.symm hhalt.1) (by omega)
    obtain ⟨t, ht, htsp, htstatus⟩ := ih (s := u) hret.2 hhalt.2 (by omega)
    exact ⟨t, (execList_cons hu).trans ht, by omega, htstatus.trans hustatus⟩

/-- Settles O34: the CALLs are counted one by one, and a CALL at 16 raises. -/
theorem nestingDepthIsSixteen : Obligations.NestingDepthIsSixteen := by
  intro is s hret hhalt hroom
  obtain ⟨t, ht, hsp, hstatus⟩ := execList_counts_calls hret hhalt hroom
  exact ⟨t, ht, hsp, hstatus, fun hfull nnn =>
    ⟨_, _, _, execCall_of_full nnn (hsp.trans hfull), raiseHere_status .., raiseHere_sp .., raiseHere_stack ..,
      raiseHere_v ..⟩⟩

end Sys2Proof.Machine
end

section
/-! PROOFS. What one step does, said once (40_engine.md R63 to R68, 60_exceptions.md R98 to R104), and the obligations about
one step: fatal conditions, `pc`, the status, and what of memory a step reads. -/

namespace Sys2Proof.Machine

/-! ### The fetched state -/

section fetched

variable {s s' u : State} {op : Word}

/-- The fetch's advance does not wrap (R23, R25). -/
theorem pc_add_two_toNat (h : s.pc.toNat ≤ 4094) : (s.pc + 2#16).toNat = s.pc.toNat + 2 := by
  rw [BitVec.toNat_add, BitVec.toNat_ofNat]
  omega

/-- A state with the same `pc` and the same two bytes there fetches the same word. -/
theorem fetch_congr (hf : fetch s = .word op s') (hpc : u.pc = s.pc)
    (hread : u.mem.read s.pc.toNat = s.mem.read s.pc.toNat)
    (hread' : u.mem.read (s.pc.toNat + 1) = s.mem.read (s.pc.toNat + 1)) :
    fetch u = .word op { u with pc := u.pc + 2#16 } := by
  obtain ⟨hle, -, h, l, hh, hl, rfl⟩ := fetch_eq_word hf
  exact fetch_of_read (hpc ▸ hle) (by rw [hpc, hread, hh]) (by rw [hpc, hread', hl])

end fetched

/-! ### The step -/

/-- What a step leaves, one constructor per way it can answer a next state. -/
inductive StepEffect (p : UnimplPolicy) (s : State) : State → Prop where
  | terminal (hs : s.status ≠ .running) : StepEffect p s s
  | outOfBounds (hr : s.status = .running) (hpc : 4094 < s.pc.toNat) :
      StepEffect p s (s.raise .outOfBoundsMemoryAccess s.pc none)
  | instr {op : Word} {i : Instr} {t : State} (hr : s.status = .running)
      (hf : fetch s = .word op { s with pc := s.pc + 2#16 }) (hd : decode op = .instr i)
      (he : Effect { s with pc := s.pc + 2#16 } i t) : StepEffect p s t
  | illegal {op : Word} (hr : s.status = .running) (hf : fetch s = .word op { s with pc := s.pc + 2#16 })
      (hd : decode op = .unimplemented op) (hp : p = .fatal) :
      StepEffect p s { s with pc := s.pc + 2#16, status := .faulted .unimplementedOpcode s.pc (some op) }
  | skipped {op : Word} (hr : s.status = .running) (hf : fetch s = .word op { s with pc := s.pc + 2#16 })
      (hd : decode op = .unimplemented op) (hp : p = .skip) : StepEffect p s { s with pc := s.pc + 2#16 }

/-- A step answers a next state by one of the ways listed, or stops for a byte that the memory does not list. -/
theorem stepWith_effect (p : UnimplPolicy) (s : State) :
    (∃ t, stepWith p s = .next t ∧ StepEffect p s t) ∨
      ∃ a, s.status = .running ∧ fetch s = .unloaded a ∧ stepWith p s = .fault (.unloadedByte a) := by
  obtain ⟨hs, e⟩ | ⟨hr, hf, e⟩ | hunloaded | ⟨op, s', i, hr, hf, hd, e⟩ | ⟨op, s', bad, hr, hf, hd, e⟩ :=
    stepWith_cases p s
  · exact .inl ⟨_, e, .terminal hs⟩
  · exact .inl ⟨_, e, .outOfBounds hr (fetch_eq_outOfBounds.1 hf)⟩
  · exact .inr hunloaded
  · obtain ⟨-, rfl, -⟩ := fetch_eq_word hf
    obtain ⟨t, ht, he⟩ := exec_effect i { s with pc := s.pc + 2#16 }
    exact .inl ⟨t, e.trans ht, .instr hr hf hd he⟩
  · obtain ⟨-, rfl, -⟩ := fetch_eq_word hf
    obtain rfl := decode_eq_unimplemented hd
    cases p with
    | fatal => exact .inl ⟨_, e.trans (execUnimplemented_fetched s _), .illegal hr hf hd rfl⟩
    | skip => exact .inl ⟨_, e, .skipped hr hf hd rfl⟩

theorem effect_of_stepWith {p : UnimplPolicy} {s t : State} (h : stepWith p s = .next t) : StepEffect p s t := by
  obtain ⟨u, hu, he⟩ | ⟨a, -, -, hfault⟩ := stepWith_effect p s
  · cases hu.symm.trans h
    exact he
  · cases hfault.symm.trans h

/-- An instruction executed is its handler run on the fetched state. -/
theorem exec_of_executes {p : UnimplPolicy} {s t : State} {i : Instr} (h : Executes p s i t) :
    s.pc.toNat ≤ 4094 ∧ exec i { s with pc := s.pc + 2#16 } = .next t := by
  obtain ⟨hr, ⟨op, s', hf, hd⟩, hstep⟩ := h
  obtain ⟨hpc, rfl, -⟩ := fetch_eq_word hf
  exact ⟨hpc, (stepWith_of_instr p hr hf hd).symm.trans hstep⟩

/-- Settles O36: the fetch is the only part of a step that can stop it, and it stops at an address of its word. -/
theorem stepStopsOnlyForAnUnloadedByte : Obligations.StepStopsOnlyForAnUnloadedByte := by
  refine ⟨fun p s hcomplete => ?_, fun p s f h => ?_, fun p s r h => ?_⟩ <;>
    obtain ⟨t, ht, -⟩ | ⟨a, hr, hf, hfault⟩ := stepWith_effect p s
  · exact ⟨t, ht⟩
  · obtain ⟨hpc, ha, hnone⟩ := fetch_eq_unloaded hf
    obtain ⟨b, hb⟩ := hcomplete a (by simp only [Config.memSize]; omega)
    cases hnone.symm.trans hb
  · cases ht.symm.trans h
  · cases hfault.symm.trans h
    obtain ⟨hpc, ha, hnone⟩ := fetch_eq_unloaded hf
    exact ⟨a, rfl, by omega, hnone, hr⟩
  · cases ht.symm.trans h
  · cases hfault.symm.trans h

/-! ### Fatal conditions -/

/-- Settles O23: the handler finds the stack full, and its own word is the one fetched. -/
theorem callOnFullStackRaisesOverflow : Obligations.CallOnFullStackRaisesOverflow := by
  intro p s s' op nnn hr hf hd hfull
  obtain ⟨-, rfl, -⟩ := fetch_eq_word hf
  obtain rfl := encode_of_decode hd
  rw [stepWith_of_instr p hr hf hd, ← raiseHere_fetched]
  exact execCall_of_full nnn hfull

/-- Settles O24: the handler finds the stack empty. -/
theorem retOnEmptyStackRaisesUnderflow : Obligations.RetOnEmptyStackRaisesUnderflow := by
  intro p s s' op hr hf hd hempty
  obtain ⟨-, rfl, -⟩ := fetch_eq_word hf
  rw [stepWith_of_instr p hr hf hd, ← raiseHere_fetched]
  exact execRet_of_empty hempty

/-- Settles O29: the code is a table of four rows. -/
theorem fatalCodes : Obligations.FatalCodes := ⟨rfl, rfl, rfl, rfl, rfl, rfl, fun _ _ _ => rfl⟩

/-- Settles O25: the fetch advances `pc` without wrap, and only CALL's push and RET's pop move it again. -/
theorem pcAfterEachInstruction : Obligations.PcAfterEachInstruction := by
  refine ⟨fun p s t i h => ?_, fun p s t hr hf h => ?_⟩
  · obtain ⟨hpc, hexec⟩ := exec_of_executes h
    refine ⟨pc_add_two_toNat hpc, ?_⟩
    cases effect_of_exec hexec with
    | call hpush => exact fun _ => callTarget_toNat _
    | callFull hfull => exact fun hroom => absurd hfull (Nat.ne_of_lt hroom)
    | ret hpop =>
      obtain ⟨-, hsp, htop, -⟩ := pop_eq_some hpop
      exact fun k hk => ⟨by simp only [hsp]; omega, htop k hk⟩
    | retEmpty hempty => exact fun k hk => absurd (hk.trans hempty) (Nat.succ_ne_zero _)
    | halt | or | and | add | sub => rfl
  · cases (stepWith_of_outOfBounds p hr hf).symm.trans h
    exact raise_pc ..

theorem decode_eq_halt_iff {op : Word} : decode op = .instr .halt ↔ op = 0x0000#16 :=
  decode_eq_instr_iff.trans eq_comm

/-- Settles O28: of the ways a step can end, those that end in FAULTED. -/
theorem faultsArePrecise : Obligations.FaultsArePrecise := by
  intro p s t kind a w hr hstep hfault
  cases effect_of_stepWith hstep with
  | terminal hs => exact absurd hr hs
  | outOfBounds =>
    cases hfault
    exact ⟨rfl, rfl, rfl, rfl, rfl, fun _ => ⟨rfl, rfl⟩, fun h => absurd rfl h⟩
  | skipped => cases hr.symm.trans hfault
  | illegal _ hf =>
    cases hfault
    obtain ⟨hpc, -⟩ := fetch_eq_word hf
    exact ⟨rfl, rfl, rfl, rfl, rfl, nofun, fun _ => ⟨pc_add_two_toNat hpc, _, _, rfl, hf⟩⟩
  | instr _ hf hd he =>
    obtain ⟨hpc, -⟩ := fetch_eq_word hf
    obtain rfl := encode_of_decode hd
    cases he with
    | halt => cases hfault
    | or | and | add | sub => cases hr.symm.trans hfault
    | ret hpop =>
      obtain ⟨-, -, -, -, -, -, -, hstatus⟩ := pop_eq_some hpop
      cases (hstatus.trans hr).symm.trans hfault
    | call hpush =>
      obtain ⟨-, -, -, -, -, -, hstatus⟩ := push_eq_some hpush
      cases (hstatus.trans hr).symm.trans hfault
    | callFull | retEmpty =>
      rw [raiseHere_fetched] at hfault ⊢
      cases hfault
      exact ⟨rfl, rfl, rfl, rfl, rfl, nofun, fun _ => ⟨pc_add_two_toNat hpc, _, _, rfl, hf⟩⟩

/-- Which fatal condition the fetched word meets (R104): the decoder's, or the precondition of CALL or RET. -/
def FaultCause (p : UnimplPolicy) (s : State) (op : Word) (kind : FatalKind) : Prop :=
  (kind = .unimplementedOpcode ∧ decode op = .unimplemented op ∧ p = .fatal) ∨
  (kind = .stackOverflow ∧ (∃ nnn, decode op = .instr (.call nnn)) ∧ s.sp.val = 16) ∨
  (kind = .stackUnderflow ∧ decode op = .instr .ret ∧ s.sp.val = 0)

theorem faulted_eq_faulted_iff {kind₁ kind₂ : FatalKind} {a₁ a₂ : Addr} {w₁ w₂ : Option Word} :
    Status.faulted kind₁ a₁ w₁ = .faulted kind₂ a₂ w₂ ↔ a₂ = a₁ ∧ w₂ = w₁ ∧ kind₂ = kind₁ := by
  rw [Status.faulted.injEq]
  tauto

/-- A step from RUNNING is a fetch fault, or it fetched a word. -/
theorem fetch_of_stepEffect {p : UnimplPolicy} {s t : State} (h : StepEffect p s t) (hr : s.status = .running) :
    (4094 < s.pc.toNat ∧ t = s.raise .outOfBoundsMemoryAccess s.pc none) ∨
      ∃ op, fetch s = .word op { s with pc := s.pc + 2#16 } := by
  cases h with
  | terminal hs => exact absurd hr hs
  | outOfBounds _ hpc => exact .inl ⟨hpc, rfl⟩
  | instr _ hf | illegal _ hf | skipped _ hf => exact .inr ⟨_, hf⟩

/-- A step that fetched a word leaves HALTED when it is HALT's, and a fault record when a fatal condition is met. -/
theorem status_after_fetch {p : UnimplPolicy} {s t : State} {op : Word} (h : StepEffect p s t)
    (hr : s.status = .running) (hf : fetch s = .word op { s with pc := s.pc + 2#16 }) :
    (t.status = .halted ↔ decode op = .instr .halt) ∧
      ∀ kind a w, t.status = .faulted kind a w ↔ a = s.pc ∧ w = some op ∧ FaultCause p s op kind := by
  cases h with
  | terminal hs => exact absurd hr hs
  | outOfBounds _ hpc => cases (fetch_eq_outOfBounds.2 hpc).symm.trans hf
  | skipped _ hf' hd hp =>
    cases hf'.symm.trans hf
    simp [FaultCause, hr, hd, hp]
  | illegal _ hf' hd hp =>
    cases hf'.symm.trans hf
    refine ⟨by simp [hd], fun kind a w => ?_⟩
    rw [faulted_eq_faulted_iff]
    simp [FaultCause, hd, hp]
  | instr _ hf' hd he =>
    cases hf'.symm.trans hf
    obtain rfl := encode_of_decode hd
    cases he with
    | halt => simp [FaultCause, hd]
    | or | and | add | sub => simp [FaultCause, hd, hr]
    | ret hpop =>
      obtain ⟨hpos, -, -, -, -, -, -, hstatus⟩ := pop_eq_some hpop
      simp [FaultCause, hd, hstatus.trans hr, Nat.ne_of_gt hpos]
    | call hpush =>
      obtain ⟨hroom, -, -, -, -, -, hstatus⟩ := push_eq_some hpush
      simp [FaultCause, hd, hstatus.trans hr, Nat.ne_of_lt hroom]
    | retEmpty hsp | callFull hsp =>
      rw [raiseHere_fetched]
      refine ⟨by simp [hd], fun kind a w => ?_⟩
      rw [faulted_eq_faulted_iff, FaultCause, show s.sp.val = _ from hsp]
      simp [hd]

/-- Settles O27: a fetch out of bounds leaves its own record, and after any other the fetched word decides. -/
theorem statusAfterAStep : Obligations.StatusAfterAStep := by
  intro p s t hr hstep
  have he := effect_of_stepWith hstep
  obtain ⟨hpc, rfl⟩ | ⟨op, hf⟩ := fetch_of_stepEffect he hr
  · have hf := fetch_eq_outOfBounds.2 hpc
    refine ⟨by simp [hf], fun kind a w => ?_⟩
    rw [raise_status, faulted_eq_faulted_iff]
    simp [hf, hpc, and_comm]
  · obtain ⟨hhalted, hfaulted⟩ := status_after_fetch he hr hf
    refine ⟨?_, fun kind a w => ?_⟩
    · rw [hhalted, decode_eq_halt_iff]
      simp [hf]
    · have hin : ¬ 4094 < s.pc.toNat := Nat.not_lt.2 (fetch_eq_word hf).1
      rw [hfaulted]
      simp [hf, hin, FaultCause]

/-! ### The memory a step reads -/

section setMem

variable {s t : State} (m : Memory)

theorem push_setMem {a : Addr} (h : s.push a = some t) :
    ({ s with mem := m } : State).push a = some { t with mem := m } := by
  unfold State.push at h ⊢
  split at h
  · next hroom => cases h; exact dif_pos hroom
  · cases h

theorem pop_setMem {a : Addr} (h : s.pop = some (a, t)) :
    ({ s with mem := m } : State).pop = some (a, { t with mem := m }) := by
  unfold State.pop at h ⊢
  split at h
  · next hentry => cases h; exact dif_pos hentry
  · cases h

/-- A handler neither reads nor writes memory. -/
theorem exec_setMem {i : Instr} (h : Effect s i t) : exec i { s with mem := m } = .next { t with mem := m } := by
  cases h with
  | ret hpop => exact execRet_of_pop (pop_setMem m hpop)
  | retEmpty hempty => exact execRet_of_empty hempty
  | call hpush => exact execCall_of_push (push_setMem m hpush)
  | callFull hfull => exact execCall_of_full _ hfull
  | halt | or | and | add | sub => rfl

end setMem

/-- Settles O42: the fetch reads two bytes, and nothing after it reads any. -/
theorem stepReadsOnlyTheFetchedBytes : Obligations.StepReadsOnlyTheFetchedBytes := by
  intro p s t m hread hread' h
  cases effect_of_stepWith h with
  | terminal hs => exact stepWith_of_ne_running p hs
  | outOfBounds hr hpc => exact stepWith_of_outOfBounds p hr (fetch_eq_outOfBounds.2 hpc)
  | instr hr hf hd he =>
    have hf' := fetch_congr (u := { s with mem := m }) hf rfl hread hread'
    exact (stepWith_of_instr (s := { s with mem := m }) p hr hf' hd).trans (exec_setMem m he)
  | illegal hr hf hd hp =>
    have hf' := fetch_congr (u := { s with mem := m }) hf rfl hread hread'
    exact hp ▸ (stepWith_of_unimplemented (s := { s with mem := m }) .fatal hr hf' hd).trans
      (execUnimplemented_fetched { s with mem := m } _)
  | skipped hr hf hd hp =>
    have hf' := fetch_congr (u := { s with mem := m }) hf rfl hread hread'
    exact hp ▸ stepWith_of_unimplemented (s := { s with mem := m }) .skip hr hf' hd

end Sys2Proof.Machine
end

section
/-! PROOFS. 10_state.md: the launch state (R34, R114) and the invariant that every step keeps (R25, R32, R98). -/

namespace Sys2Proof.Machine

/-! ### The launch state -/

theorem Memory.complete_ofImage (img : MemImage) : (Memory.ofImage img).Complete := fun a ha =>
  ⟨_, Memory.read_ofImage img ⟨a, ha⟩⟩

/-- Settles O35: the state after `Reset` is the launch state, field by field. -/
theorem resetLeavesTheLaunchState : Obligations.ResetLeavesTheLaunchState := by
  intro img v k s
  rw [hostReset, launch_mem]
  exact ⟨launch_pc .., launch_sp .., launch_status .., launch_v .., launch_stack .., Memory.read_ofImage img,
    Memory.complete_ofImage img⟩

/-! ### The live return addresses -/

section returns

variable {s t : State} {a : Addr}

theorem State.ReturnsOk.push (h : s.ReturnsOk) (ha : 2 ≤ a.toNat ∧ a.toNat ≤ 4096) (hpush : s.push a = some t) :
    t.ReturnsOk := by
  obtain ⟨-, hsp, hslots, -⟩ := push_eq_some hpush
  intro k hk
  rw [hslots k]
  split
  · exact ha
  · exact h k (by omega)

/-- A pop gives a live return address, and the entries below it stay live. -/
theorem State.ReturnsOk.pop (h : s.ReturnsOk) (hpop : s.pop = some (a, t)) :
    t.ReturnsOk ∧ 2 ≤ a.toNat ∧ a.toNat ≤ 4096 := by
  obtain ⟨hpos, hsp, htop, hstack, -⟩ := pop_eq_some hpop
  have hsp16 := s.sp.isLt
  refine ⟨fun k hk => ?_, ?_⟩
  · rw [readStack_congr hstack]
    exact h k (by omega)
  · rw [htop ⟨s.sp.val - 1, by omega⟩ (Nat.sub_add_cancel hpos)]
    exact h _ (Nat.sub_lt hpos Nat.one_pos)

end returns

/-! ### The invariant -/

section invariant

variable {p : UnimplPolicy} {s t : State}

theorem State.StatusOk.of_not_faulted (h : ∀ kind a w, s.status ≠ .faulted kind a w) : s.StatusOk :=
  fun kind a w hfault => absurd hfault (h kind a w)

theorem State.StatusOk.of_running (h : s.status = .running) : s.StatusOk :=
  State.StatusOk.of_not_faulted fun _ _ _ hfault => nomatch h.symm.trans hfault

theorem State.StatusOk.of_faulted {kind : FatalKind} {a : Addr} {w : Option Word} (h : s.status = .faulted kind a w)
    (hrecord : s.FaultRecordOk kind a w) : s.StatusOk := by
  intro kind' a' w' h'
  cases h.symm.trans h'
  exact hrecord

/-- Settles O38: the stack is empty and the status RUNNING. -/
theorem launchHasTheInvariant : Obligations.LaunchHasTheInvariant := by
  have hlaunch : ∀ (m : Memory) (v : RegFile) (k : CallStack), m.wf → (State.launch m v k).Inv := fun m v k hm =>
    ⟨hm, Nat.zero_le _, fun j hj => absurd hj (Nat.not_lt_zero _), State.StatusOk.of_running (launch_status ..)⟩
  exact ⟨hlaunch, hlaunch _ _ _ Memory.wf_reset⟩

/-- The parts of the invariant that a handler, run on a fetched state, keeps or makes true. -/
theorem Effect.keeps_inv {i : Instr} (h : Effect { s with pc := s.pc + 2#16 } i t) (hr : s.status = .running)
    (hpc : s.pc.toNat ≤ 4094) (hret : s.ReturnsOk) : t.pc.toNat ≤ 4096 ∧ t.ReturnsOk ∧ t.StatusOk := by
  have hnext := pc_add_two_toNat hpc
  have hle : (s.pc + 2#16).toNat ≤ 4096 := by omega
  have hret' : ({ s with pc := s.pc + 2#16 } : State).ReturnsOk := hret
  cases h with
  | halt => exact ⟨hle, hret, State.StatusOk.of_not_faulted nofun⟩
  | or | and | add | sub => exact ⟨hle, hret, State.StatusOk.of_running hr⟩
  | ret hpop =>
    obtain ⟨-, -, -, -, -, -, -, hstatus⟩ := pop_eq_some hpop
    obtain ⟨hrest, -, ha⟩ := hret'.pop hpop
    exact ⟨ha, hrest, State.StatusOk.of_running (hstatus.trans hr)⟩
  | call hpush =>
    obtain ⟨-, -, -, -, -, -, hstatus⟩ := push_eq_some hpush
    have hpushed := hret'.push (by simp only [hnext]; omega) hpush
    exact ⟨callTarget_toNat_le _, hpushed, State.StatusOk.of_running (hstatus.trans hr)⟩
  | retEmpty hempty =>
    rw [raiseHere_fetched]
    exact ⟨hle, hret, State.StatusOk.of_faulted rfl ⟨hpc, hnext, hempty, rfl⟩⟩
  | callFull hfull =>
    rw [raiseHere_fetched]
    exact ⟨hle, hret, State.StatusOk.of_faulted rfl ⟨hpc, hnext, hfull, _, rfl⟩⟩

/-- Settles O37: the way each step ends keeps `pc`, the live return addresses and the fault record in their ranges. -/
theorem everyStepKeepsTheInvariant : Obligations.EveryStepKeepsTheInvariant := by
  rintro p s t ⟨hwf, hpc, hret, hstatus⟩ h
  suffices t.pc.toNat ≤ 4096 ∧ t.ReturnsOk ∧ t.StatusOk from
    ⟨stepWith_mem h ▸ hwf, this.1, this.2.1, this.2.2⟩
  cases effect_of_stepWith h with
  | terminal => exact ⟨hpc, hret, hstatus⟩
  | outOfBounds hr hend =>
    have hrecord : s.pc = 4095#16 ∨ s.pc = 4096#16 := by
      simp only [← BitVec.toNat_inj, BitVec.toNat_ofNat]
      omega
    exact ⟨hpc, hret, State.StatusOk.of_faulted (raise_status ..) ⟨hrecord, rfl, rfl⟩⟩
  | instr hr hf hd he => exact he.keeps_inv hr (fetch_eq_word hf).1 hret
  | illegal hr hf hd =>
    obtain ⟨hle, -⟩ := fetch_eq_word hf
    have hnext := pc_add_two_toNat hle
    exact ⟨by simp only [hnext]; omega, hret, State.StatusOk.of_faulted rfl ⟨hle, hnext, _, rfl, hd⟩⟩
  | skipped hr hf =>
    obtain ⟨hle, -⟩ := fetch_eq_word hf
    have hnext := pc_add_two_toNat hle
    exact ⟨by simp only [hnext]; omega, hret, State.StatusOk.of_running hr⟩

end invariant

end Sys2Proof.Machine
end

section
/-! PROOFS. Runs (40_engine.md R67 to R69): terminal statuses, the fuel, that every run ends, matched calls and returns
(41_control_flow.md R84), and that dead stack slots are never observed (10_state.md R31, R32). -/

namespace Sys2Proof.Machine

variable {p : UnimplPolicy}

/-! ### Terminal statuses and fuel -/

/-- Settles O26: the step stays, so each turn of the run loop ends at once. -/
theorem terminalStatusStays : Obligations.TerminalStatusStays := by
  intro p s hs
  have hstep := stepWith_of_ne_running p hs
  refine ⟨hstep, fun n => ?_⟩
  cases n with
  | zero => rfl
  | succ n => rw [runWith_succ p n hstep, if_neg hs]

theorem runWith_of_ne_running {s : State} (n : Nat) (hs : s.status ≠ .running) : runWith p n s = .next s :=
  (terminalStatusStays p s hs).2 n

/-- A step and the run after it: the run loop's test of the status makes no difference. -/
theorem runWith_succ_of_step {s t : State} (n : Nat) (h : stepWith p s = .next t) :
    runWith p (n + 1) s = runWith p n t := by
  rw [runWith_succ p n h]
  split
  · rfl
  · next ht => exact (runWith_of_ne_running n ht).symm

/-- A run of one step more is a step, and the run after it. -/
theorem step_of_runWith_succ {s t : State} {n : Nat} (h : runWith p (n + 1) s = .next t) :
    ∃ u, stepWith p s = .next u ∧ runWith p n u = .next t := by
  obtain ⟨u, hu, -⟩ := runWith_succ_eq_next h
  exact ⟨u, hu, (runWith_succ_of_step n hu).symm.trans h⟩

/-- Settles O40: after its end a run stays there, and before it both runs make the same step. -/
theorem moreFuelGivesTheSameEnd : Obligations.MoreFuelGivesTheSameEnd := by
  intro p n
  induction n with
  | zero =>
    intro m s t h ht _
    cases h
    exact runWith_of_ne_running m ht
  | succ n ih =>
    intro m s t h ht hm
    obtain ⟨u, hu, hrun⟩ := step_of_runWith_succ h
    obtain ⟨m, rfl⟩ := Nat.exists_eq_succ_of_ne_zero (Nat.ne_zero_of_lt hm)
    rw [runWith_succ_of_step m hu]
    exact ih m u t hrun ht (Nat.le_of_succ_le_succ hm)

/-! ### How a step moves `pc`, `sp` and the stack -/

/-- No handler changes a stack entry below `sp`. -/
theorem Effect.readStack_below {i : Instr} {s t : State} (h : Effect s i t) {k : Fin 16} (hk : k.val < s.sp.val) :
    t.readStack k = s.readStack k := by
  cases h with
  | call hpush =>
    obtain ⟨-, -, hslots, -⟩ := push_eq_some hpush
    exact (hslots k).trans (if_neg (Nat.ne_of_lt hk))
  | ret hpop =>
    obtain ⟨-, -, -, hstack, -⟩ := pop_eq_some hpop
    exact readStack_congr hstack k
  | halt | retEmpty | callFull | or | and | add | sub => rfl

theorem stepWith_readStack_below {s t : State} (h : stepWith p s = .next t) {k : Fin 16} (hk : k.val < s.sp.val) :
    t.readStack k = s.readStack k := by
  cases effect_of_stepWith h with
  | instr _ _ _ he => exact he.readStack_below hk
  | terminal | outOfBounds | illegal | skipped => rfl

/-- A step from RUNNING to RUNNING goes on behind its instruction, or calls with that address on the stack, or returns to
the address on top of the stack. -/
theorem pc_sp_of_running_step {s t : State} (h : stepWith p s = .next t) (hs : s.status = .running)
    (ht : t.status = .running) :
    s.pc.toNat ≤ 4094 ∧
      ((t.sp = s.sp ∧ t.pc.toNat = s.pc.toNat + 2) ∨
        (t.sp.val = s.sp.val + 1 ∧ ∀ k : Fin 16, k.val = s.sp.val → (t.readStack k).toNat = s.pc.toNat + 2) ∨
        (t.sp.val + 1 = s.sp.val ∧ ∀ k : Fin 16, k.val = t.sp.val → t.pc = s.readStack k)) := by
  cases effect_of_stepWith h with
  | terminal hs' => exact absurd hs hs'
  | outOfBounds | illegal => cases ht
  | skipped _ hf =>
    obtain ⟨hpc, -⟩ := fetch_eq_word hf
    exact ⟨hpc, .inl ⟨rfl, pc_add_two_toNat hpc⟩⟩
  | instr _ hf _ he =>
    obtain ⟨hpc, -⟩ := fetch_eq_word hf
    refine ⟨hpc, ?_⟩
    cases he with
    | halt | retEmpty | callFull => cases ht
    | or | and | add | sub => exact .inl ⟨rfl, pc_add_two_toNat hpc⟩
    | call hpush =>
      obtain ⟨-, hsp, hslots, -⟩ := push_eq_some hpush
      refine .inr (.inl ⟨hsp, fun k hk => ?_⟩)
      exact (congrArg BitVec.toNat ((hslots k).trans (if_pos hk))).trans (pc_add_two_toNat hpc)
    | ret hpop =>
      obtain ⟨hpos, hsp, htop, -⟩ := pop_eq_some hpop
      have hdown := (congrArg (· + 1) hsp).trans (Nat.sub_add_cancel hpos)
      exact .inr (.inr ⟨hdown, fun k hk => htop k (hk ▸ hdown)⟩)

/-! ### Every run ends -/

/-- How far each level of the stack still has to go: at a level below `sp` from its return address, where the RET to it is
one more thing to do, and at level `sp` from `pc`. (Levels above `sp` are not compared.) -/
def State.progress (s : State) (j : Fin 17) : Nat :=
  if h : j.val < s.sp.val then
    2 * (4096 - (s.readStack ⟨j.val, Nat.lt_of_lt_of_le h (Nat.le_of_lt_succ s.sp.isLt)⟩).toNat) + 1
  else 2 * (4096 - s.pc.toNat)

theorem progress_below {s : State} {j : Fin 17} {k : Fin 16} (hj : j.val = k.val) (hk : k.val < s.sp.val) :
    s.progress j = 2 * (4096 - (s.readStack k).toNat) + 1 := by
  obtain ⟨k, hk16⟩ := k
  exact (dif_pos (hj ▸ hk)).trans (by simp only [hj])

theorem progress_top {s : State} {j : Fin 17} (hj : j.val = s.sp.val) : s.progress j = 2 * (4096 - s.pc.toNat) :=
  dif_neg (Nat.not_lt.2 (Nat.le_of_eq hj.symm))

/-- Two states with the same entries below a level are at the same point in every level below it. -/
theorem progress_eq_of_readStack_eq {s t : State} {j : Fin 17} (hs : j.val < s.sp.val) (ht : j.val < t.sp.val)
    (h : ∀ k : Fin 16, k.val < s.sp.val → t.readStack k = s.readStack k) : t.progress j = s.progress j := by
  have hj : j.val < 16 := Nat.lt_of_lt_of_le hs (Nat.le_of_lt_succ s.sp.isLt)
  rw [progress_below (k := ⟨j.val, hj⟩) rfl hs, progress_below (k := ⟨j.val, hj⟩) rfl ht, h _ hs]

/-- A step from RUNNING to RUNNING goes forward at the lowest level that it changes (R69). -/
theorem progress_decreases {s t : State} (h : stepWith p s = .next t) (hs : s.status = .running)
    (ht : t.status = .running) : Pi.Lex (· < ·) (· < ·) t.progress s.progress := by
  have hbelow := fun k hk => stepWith_readStack_below (k := k) h hk
  obtain ⟨hpc, ⟨hsp, hnext⟩ | ⟨hsp, hslot⟩ | ⟨hsp, hret⟩⟩ := pc_sp_of_running_step h hs ht
  · refine ⟨s.sp, fun j hj => progress_eq_of_readStack_eq hj (hsp ▸ hj) hbelow, ?_⟩
    rw [progress_top rfl, progress_top (congrArg _ hsp.symm)]
    omega
  · have hk : s.sp.val < 16 := by have := t.sp.isLt; omega
    refine ⟨s.sp, fun j hj => progress_eq_of_readStack_eq hj (by omega) hbelow, ?_⟩
    rw [progress_top rfl, progress_below (k := ⟨s.sp.val, hk⟩) rfl (by simp only [hsp]; omega), hslot _ rfl]
    omega
  · have hk : t.sp.val < 16 := by have := s.sp.isLt; omega
    refine ⟨t.sp, fun j hj => progress_eq_of_readStack_eq (by omega) hj hbelow, ?_⟩
    rw [progress_top rfl, progress_below (s := s) (k := ⟨t.sp.val, hk⟩) rfl (by simp only; omega),
      hret ⟨t.sp.val, hk⟩ rfl]
    omega

/-- Settles O39: on the levels of the stack, ordered from the lowest, progress cannot go on for ever. -/
theorem everyRunEnds : Obligations.EveryRunEnds := by
  intro p s
  have hwf : WellFounded (InvImage (Pi.Lex (· < ·) (· < ·)) State.progress) :=
    InvImage.wf _ (Pi.Lex.wellFounded (· < ·) fun _ => Nat.lt_wfRel.wf)
  induction s using hwf.induction with
  | _ s ih =>
  intro hcomplete
  by_cases hs : s.status = .running
  · obtain ⟨t, hstep⟩ := stepStopsOnlyForAnUnloadedByte.1 p s hcomplete
    by_cases ht : t.status = .running
    · obtain ⟨n, u, hrun, hu⟩ := ih t (progress_decreases hstep hs ht) (stepWith_mem hstep ▸ hcomplete)
      exact ⟨n + 1, u, (runWith_succ_of_step n hstep).trans hrun, hu⟩
    · exact ⟨1, t, runWith_succ_of_step 0 hstep, ht⟩
  · exact ⟨0, s, rfl, hs⟩

/-! ### Matched calls and returns -/

/-- While `sp` stays above a slot, the slot keeps its value along a trace. -/
theorem readStack_along_trace {trace : Nat → State} {n : Nat} {k : Fin 16}
    (hsteps : ∀ i, i < n → stepWith p (trace i) = .next (trace (i + 1)))
    (habove : ∀ i, i ≤ n → k.val < (trace i).sp.val) : (trace n).readStack k = (trace 0).readStack k := by
  induction n with
  | zero => rfl
  | succ n ih =>
    have hlast := stepWith_readStack_below (hsteps n n.lt_succ_self) (habove n n.le_succ)
    exact hlast.trans (ih (fun i hi => hsteps i (Nat.lt_succ_of_lt hi)) fun i hi => habove i (Nat.le_succ_of_le hi))

/-- Settles O41: the slot the CALL wrote stays live until the RET, which pops it. -/
theorem matchedReturnResumesAfterTheCall : Obligations.MatchedReturnResumesAfterTheCall := by
  intro p s u nnn n trace hcall hroom hsteps habove hback hret
  obtain ⟨hpc, hexec⟩ := exec_of_executes hcall
  obtain ⟨t, ht, hsp, -, hslots, -⟩ := callWithRoomPushesAndJumps nnn { s with pc := s.pc + 2#16 } hroom
  cases ht.symm.trans hexec
  have hlive : ∀ i, i ≤ n → s.sp.val < (trace i).sp.val := fun i hi =>
    (Nat.le_of_eq hsp.symm).trans (habove i hi)
  have hslot : (trace n).readStack ⟨s.sp.val, hroom⟩ = s.pc + 2#16 :=
    (readStack_along_trace hsteps hlive).trans ((hslots _).trans (if_pos rfl))
  obtain ⟨hsp', hpc'⟩ := (pcAfterEachInstruction.1 p _ u .ret hret).2 ⟨s.sp.val, hroom⟩ (by rw [hback, hsp])
  exact ⟨by rw [hpc', hslot, pc_add_two_toNat hpc], Fin.ext hsp'⟩

/-! ### Dead stack slots -/

section sameLive

variable {s₁ s₂ t₁ t₂ : State}

/-- Of two alike states, one update each that keeps memory, registers, `pc` and status: what is left to show. -/
theorem State.SameLive.of_frame (h : s₁.SameLive s₂)
    (hframe₁ : t₁.mem = s₁.mem ∧ t₁.v = s₁.v ∧ t₁.pc = s₁.pc ∧ t₁.status = s₁.status)
    (hframe₂ : t₂.mem = s₂.mem ∧ t₂.v = s₂.v ∧ t₂.pc = s₂.pc ∧ t₂.status = s₂.status) (hsp : t₂.sp.val = t₁.sp.val)
    (hlive : ∀ k : Fin 16, k.val < t₁.sp.val → t₂.readStack k = t₁.readStack k) : t₁.SameLive t₂ := by
  obtain ⟨hmem₁, hv₁, hpc₁, hstatus₁⟩ := hframe₁
  obtain ⟨hmem₂, hv₂, hpc₂, hstatus₂⟩ := hframe₂
  exact ⟨hmem₂.trans (h.mem.trans hmem₁.symm), hv₂.trans (h.v.trans hv₁.symm), hpc₂.trans (h.pc.trans hpc₁.symm),
    Fin.ext hsp, hstatus₂.trans (h.status.trans hstatus₁.symm), hlive⟩

theorem State.SameLive.push {a : Addr} (h : s₁.SameLive s₂) (hpush : s₁.push a = some t₁) :
    ∃ t₂, s₂.push a = some t₂ ∧ t₁.SameLive t₂ := by
  obtain ⟨hroom, hsp₁, hslots₁, hframe₁⟩ := push_eq_some hpush
  obtain ⟨t₂, hpush₂⟩ := exists_push a (h.sp ▸ hroom)
  obtain ⟨-, hsp₂, hslots₂, hframe₂⟩ := push_eq_some hpush₂
  rw [h.sp] at hsp₂ hslots₂
  refine ⟨t₂, hpush₂, h.of_frame hframe₁ hframe₂ (hsp₂.trans hsp₁.symm) fun k hk => ?_⟩
  rw [hslots₁, hslots₂]
  split
  · rfl
  · exact h.live k (by omega)

theorem State.SameLive.pop {a : Addr} (h : s₁.SameLive s₂) (hpop : s₁.pop = some (a, t₁)) :
    ∃ t₂, s₂.pop = some (a, t₂) ∧ t₁.SameLive t₂ := by
  obtain ⟨hpos, hsp₁, htop₁, hstack₁, hframe₁⟩ := pop_eq_some hpop
  obtain ⟨b, t₂, hpop₂⟩ := exists_pop (h.sp ▸ hpos)
  obtain ⟨-, hsp₂, htop₂, hstack₂, hframe₂⟩ := pop_eq_some hpop₂
  rw [h.sp] at hsp₂ htop₂
  have hk : s₁.sp.val - 1 < 16 := by have := s₁.sp.isLt; omega
  have hlen : s₁.sp.val - 1 + 1 = s₁.sp.val := Nat.sub_add_cancel hpos
  have hb : b = a := by
    rw [htop₁ ⟨_, hk⟩ hlen, htop₂ ⟨_, hk⟩ hlen]
    exact h.live _ (Nat.sub_lt hpos Nat.one_pos)
  refine ⟨t₂, hb ▸ hpop₂, h.of_frame hframe₁ hframe₂ (hsp₂.trans hsp₁.symm) fun k hk => ?_⟩
  rw [readStack_congr hstack₁, readStack_congr hstack₂]
  exact h.live k (by omega)

theorem State.SameLive.setPc (h : s₁.SameLive s₂) (a : Addr) :
    ({ s₁ with pc := a } : State).SameLive { s₂ with pc := a } :=
  ⟨h.mem, h.v, rfl, h.sp, h.status, h.live⟩

theorem State.SameLive.setStatus (h : s₁.SameLive s₂) (st : Status) :
    ({ s₁ with status := st } : State).SameLive { s₂ with status := st } :=
  ⟨h.mem, h.v, h.pc, h.sp, rfl, h.live⟩

theorem State.SameLive.raiseHere (h : s₁.SameLive s₂) (kind : FatalKind) (op : Word) :
    (s₁.raiseHere kind op).SameLive (s₂.raiseHere kind op) := by
  have hstatus : (s₂.raiseHere kind op).status = (s₁.raiseHere kind op).status := by
    rw [raiseHere_status, raiseHere_status, h.pc]
  exact ⟨h.mem, h.v, h.pc, h.sp, hstatus, h.live⟩

/-- Two states with the same registers write the same to them. -/
theorem State.SameLive.aluPlain (h : s₁.SameLive s₂) (f : Byte → Byte → Byte) (x y : RegIdx) :
    (s₁.aluPlain f x y).SameLive (s₂.aluPlain f x y) := by
  have hv : (s₂.aluPlain f x y).v = (s₁.aluPlain f x y).v := by
    simp only [State.aluPlain, State.aluOperands, State.writeReg, State.readReg, h.v]
  exact ⟨h.mem, hv, h.pc, h.sp, h.status, h.live⟩

theorem State.SameLive.aluFlagged (h : s₁.SameLive s₂) (f flag : Byte → Byte → Byte) (x y : RegIdx) :
    (s₁.aluFlagged f flag x y).SameLive (s₂.aluFlagged f flag x y) := by
  have hv : (s₂.aluFlagged f flag x y).v = (s₁.aluFlagged f flag x y).v := by
    simp only [State.aluFlagged, State.aluOperands, State.writeFlag, State.writeReg, State.readReg, h.v]
  exact ⟨h.mem, hv, h.pc, h.sp, h.status, h.live⟩

/-- Every handler keeps two states alike in their live part. -/
theorem State.SameLive.exec {i : Instr} (h : s₁.SameLive s₂) (he : Effect s₁ i t₁) :
    ∃ t₂, Machine.exec i s₂ = .next t₂ ∧ t₁.SameLive t₂ := by
  cases he with
  | halt => exact ⟨_, rfl, h.setStatus _⟩
  | ret hpop =>
    obtain ⟨t₂, hpop₂, ht⟩ := h.pop hpop
    exact ⟨_, execRet_of_pop hpop₂, ht.setPc _⟩
  | retEmpty hempty => exact ⟨_, execRet_of_empty (h.sp ▸ hempty), h.raiseHere ..⟩
  | call hpush =>
    obtain ⟨t₂, hpush₂, ht⟩ := h.push hpush
    exact ⟨_, execCall_of_push (h.pc ▸ hpush₂), ht.setPc _⟩
  | callFull hfull => exact ⟨_, execCall_of_full _ (h.sp ▸ hfull), h.raiseHere ..⟩
  | or x y | and x y => exact ⟨_, rfl, h.aluPlain _ x y⟩
  | add x y | sub x y => exact ⟨_, rfl, h.aluFlagged _ _ x y⟩

/-- Both states fetch the same word, and advance `pc` alike. -/
theorem State.SameLive.fetch {op : Word} {s' : State} (h : s₁.SameLive s₂) (hf : Machine.fetch s₁ = .word op s') :
    Machine.fetch s₂ = .word op { s₂ with pc := s₁.pc + 2#16 } := by
  rw [← h.pc]
  exact fetch_congr hf h.pc (by rw [h.mem]) (by rw [h.mem])

theorem State.SameLive.stepWith (h : s₁.SameLive s₂) (hstep : Machine.stepWith p s₁ = .next t₁) :
    ∃ t₂, Machine.stepWith p s₂ = .next t₂ ∧ t₁.SameLive t₂ := by
  cases effect_of_stepWith hstep with
  | terminal hs => exact ⟨s₂, stepWith_of_ne_running p (h.status ▸ hs), h⟩
  | outOfBounds hr hpc =>
    have hf₂ := fetch_eq_outOfBounds.2 (h.pc ▸ hpc)
    exact ⟨_, stepWith_of_outOfBounds p (h.status.trans hr) hf₂, h.pc ▸ h.setStatus _⟩
  | instr hr hf hd he =>
    obtain ⟨t₂, ht₂, ht⟩ := (h.setPc _).exec he
    exact ⟨t₂, (stepWith_of_instr p (h.status.trans hr) (h.fetch hf) hd).trans ht₂, ht⟩
  | illegal hr hf hd hp =>
    rw [← raiseHere_fetched]
    exact ⟨_, hp ▸ stepWith_of_unimplemented .fatal (h.status.trans hr) (h.fetch hf) hd, (h.setPc _).raiseHere ..⟩
  | skipped hr hf hd hp =>
    exact ⟨_, hp ▸ stepWith_of_unimplemented .skip (h.status.trans hr) (h.fetch hf) hd, h.setPc _⟩

end sameLive

/-- Settles O43: each step keeps the live parts alike, hence each run. -/
theorem deadStackSlotsAreUnobservable : Obligations.DeadStackSlotsAreUnobservable := by
  intro p n
  induction n with
  | zero =>
    intro s₁ s₂ t₁ h hrun
    cases hrun
    exact ⟨s₂, rfl, h⟩
  | succ n ih =>
    intro s₁ s₂ t₁ h hrun
    obtain ⟨u₁, hu₁, hrun₁⟩ := step_of_runWith_succ hrun
    obtain ⟨u₂, hu₂, hu⟩ := h.stepWith hu₁
    obtain ⟨t₂, hrun₂, ht⟩ := ih u₁ u₂ t₁ hu hrun₁
    exact ⟨t₂, (runWith_succ_of_step n hu₂).trans hrun₂, ht⟩

end Sys2Proof.Machine
end
